-- ==== Sys2Proof/Word.lean ====
section
/-! DEFINITION. The widths of the block's values (00_scope.md R10, 30_encoding.md R70, R79, R80). -/

namespace Sys2Proof

/-- A byte, 8 bits unsigned (R10). -/
abbrev Byte := BitVec 8

/-- A command word `cmd[9:0]` (R70). -/
abbrev CmdWord := BitVec 10

/-- A channel value, 11 bits unsigned (R10). -/
abbrev Channel := BitVec 11

/-- The 22 payload bytes as one 176-bit stream (R63). -/
abbrev PayloadStream := BitVec 176

/-- The packet vector `pkt[179:0]` (R80). -/
abbrev PacketVector := BitVec 180

/-- The response word `resp[180:0]` (R79). -/
abbrev RespWord := BitVec 181

/-- The 25 bytes b0 to b24 of a window, in order of arrival (30_encoding.md R61). -/
abbrev Frame := Vector Byte 25

end Sys2Proof
end

