-- ==== Sys2Proof/Config.lean ====
section
/-! DEFINITION. The block's fixed constants (00_scope.md R8) and its one parameter, RESYNC_MODE (R9, 10_state.md R31). -/

namespace Sys2Proof

/-- The values of RESYNC_MODE (R9). -/
inductive ResyncMode where
  /-- After a false header pop it and answer NotReady (40_frame_locator.md R97). -/
  | popOne
  /-- After a false header go on within the same call (40_frame_locator.md R98). -/
  | rescan
  deriving DecidableEq, Repr

namespace Config

/-- FRAME_SIZE (R8). -/
abbrev frameSize : Nat := 25
/-- RING_CAPACITY (R8). -/
abbrev ringCapacity : Nat := 50
/-- HEADER, frame offset 0 (R8). -/
abbrev header : Byte := 0x0F#8
/-- FOOTER, frame offset 24 (R8). -/
abbrev footer : Byte := 0x00#8
/-- FLAG_RESERVED_MASK, on the flag byte at frame offset 23 (R8). -/
abbrev flagReservedMask : Byte := 0xF0#8
/-- PAYLOAD_BYTES, frame offsets 1 to 22 (R8). -/
abbrev payloadBytes : Nat := 22
/-- NUM_CHANNELS (R8). -/
abbrev numChannels : Nat := 16
/-- CHANNEL_BITS (R8). -/
abbrev channelBits : Nat := 11
/-- NUM_FLAGS (R8). -/
abbrev numFlags : Nat := 4

/-- "This hardware takes RESYNC_MODE = POP_ONE" (R9). -/
def resyncMode : ResyncMode := .popOne

end Config
end Sys2Proof
end

