-- ==== Sys2Proof/Syntax.lean ====
section
/-! DEFINITION. The command set: one constructor per row of spec/opcode_table.json (30_encoding.md R71); the reasons a
command word is no command (R74); the lines of the assembler's spelling (R76). -/

namespace Sys2Proof

/-- The block's commands (42_commands.md R130). -/
inductive Instr where
  /-- PUSH_BYTE, op 00, any data byte (R132). -/
  | pushByte (data : Byte)
  /-- TRY_PARSE, op 01, data 0 (R133). -/
  | tryParse
  /-- NEW, op 10, data 0 (R131). -/
  | new
  deriving DecidableEq, Repr

/-- Why a 10-bit word is reserved (30_encoding.md R74). -/
inductive Reject where
  /-- op = 11. -/
  | reservedOp (w : CmdWord)
  /-- op = 01 or op = 10 with a data field that is not zero. -/
  | nonzeroData (w : CmdWord)
  deriving DecidableEq, Repr

/-- A line of the assembler's language, commands and pseudo-commands (30_encoding.md R76), its numbers as written. -/
inductive AsmLine where
  | pushByte (n : Nat)
  | tryParse
  | new
  /-- PUSH_BYTES (42_commands.md R137). -/
  | pushBytes (ns : List Nat)
  /-- DRAIN_AND_PARSE, host side only (42_commands.md R141). -/
  | drainAndParse
  deriving DecidableEq, Repr

end Sys2Proof
end

