-- ==== Sys2Proof/WellFormed.lean ====
section
/-! DEFINITION. The checks on raw terms: command words (30_encoding.md R73, R74) and assembler lines (R76). An Instr
needs none: its one operand is a byte by its type, and "All 256 values are legal" (R72). -/

namespace Sys2Proof

/-- The op field `cmd[9:8]` (R70). -/
def opField (w : CmdWord) : BitVec 2 := w.extractLsb' 8 2

/-- The data field `cmd[7:0]` (R70, R72). -/
def dataField (w : CmdWord) : Byte := w.extractLsb' 0 8

/-- op is not the reserved 11 (R74). -/
def opLegal (w : CmdWord) : Bool := opField w != 0b11#2

/-- The data field is zero wherever op is not PUSH_BYTE's (R70, R73). -/
def dataLegal (w : CmdWord) : Bool := opField w == 0b00#2 || dataField w == 0x00#8

/-- The word is not reserved (R74). -/
def wordLegal (w : CmdWord) : Bool := opLegal w && dataLegal w

/-- Every command is well formed (R72). -/
def Instr.wellFormed : Instr → Bool
  | .pushByte _ => true
  | .tryParse => true
  | .new => true

/-- A number that names a byte: "<byte> in 0..255" (R76). -/
def numberIsByte (n : Nat) : Bool := decide (n < 256)

/-- Every number of the line names a byte (R76). -/
def AsmLine.wellFormed : AsmLine → Bool
  | .pushByte n => numberIsByte n
  | .pushBytes ns => ns.all numberIsByte
  | .tryParse => true
  | .new => true
  | .drainAndParse => true

end Sys2Proof
end

