-- ==== Sys2Proof/Decode.lean ====
section
/-! DEFINITION. The command decoder, total over the 1024 words (30_encoding.md R75), the encoder (R71), and the opcode
table as rows of mask and match. -/

namespace Sys2Proof

/-- `Decode(cmd[9:0])` (R75); a reserved word is rejected by name (R74). -/
def decode (w : CmdWord) : Except Reject Instr :=
  if opField w = 0b00#2 then .ok (.pushByte (dataField w))
  else if opField w = 0b01#2 then
    if dataField w = 0x00#8 then .ok .tryParse else .error (.nonzeroData w)
  else if opField w = 0b10#2 then
    if dataField w = 0x00#8 then .ok .new else .error (.nonzeroData w)
  else .error (.reservedOp w)

/-- The word of a command (R71). -/
def encode : Instr → CmdWord
  | .pushByte d => 0b00#2 ++ d
  | .tryParse => 0b01#2 ++ 0x00#8
  | .new => 0b10#2 ++ 0x00#8

/-- A row of spec/opcode_table.json: the word w is of the row when `w &&& mask = bits`. -/
structure OpRow where
  mask : CmdWord
  bits : CmdWord
  deriving DecidableEq, Repr

/-- The row of a command in spec/opcode_table.json. -/
def opRow : Instr → OpRow
  | .pushByte _ => ⟨0x300#10, 0x000#10⟩
  | .tryParse => ⟨0x3FF#10, 0x100#10⟩
  | .new => ⟨0x3FF#10, 0x200#10⟩

/-- The three rows of spec/opcode_table.json, in its order. -/
def opTable : List OpRow := [⟨0x300#10, 0x000#10⟩, ⟨0x3FF#10, 0x100#10⟩, ⟨0x3FF#10, 0x200#10⟩]

/-- The word has the row's fixed bits. -/
def OpRow.holds (r : OpRow) (w : CmdWord) : Bool := (w &&& r.mask) == r.bits

/-- No word has the fixed bits of both rows: they differ in a bit that both fix. -/
def OpRow.disjoint (r r' : OpRow) : Bool := ((r.bits ^^^ r'.bits) &&& r.mask &&& r'.mask) != 0#10

/-- A number as a command word. "Every command word is exactly 10 bits" (R70): a number that 10 wires cannot carry
stands as the reserved word 0x3FF, so that it is rejected (log entry 2, DESIGN CHOICE, safe). -/
def wordOfNat (w : Nat) : CmdWord := if w < 1024 then BitVec.ofNat 10 w else 0x3FF#10

/-- The command the decoder reads from the bits `w`, numbered as the opcode table numbers them. Every command word has
the same length (R70), so the bit count says nothing more (log entry 2). -/
def decodeTableWord (_nbits w : Nat) : Option Instr :=
  match decode (wordOfNat w) with
  | .ok i => some i
  | .error _ => none

end Sys2Proof
end

