-- ==== Sys2Proof/Machine/State.lean ====
section
/-! DEFINITION. The state of the block (10_state.md R20), the values on its ports (30_encoding.md R82), the reasons a
step can stop, and the state after reset (10_state.md R32). -/

namespace Sys2Proof.Machine

/-- The ring's contents, front first: element i is the byte at ring offset i (10_state.md R20, R28). The block has no
addressed memory, so this list is its whole memory; it has one form for each contents (log entry 3). -/
abbrev Ring := List Byte

/-- The ring invariant `|q| <= 50` (10_state.md R27). -/
def Ring.wf (q : Ring) : Bool := decide (q.length ≤ Config.ringCapacity)

/-- The packet a parse returns (41_bit_unpacker.md R117). -/
structure Packet where
  /-- channels 0 to 15, each in [0, 2047] -/
  channels : Vector Channel 16
  d1 : Bool
  d2 : Bool
  frameLost : Bool
  failsafe : Bool
  deriving DecidableEq, Repr

/-- A TRY_PARSE response (00_scope.md R13, 30_encoding.md R78). -/
inductive Response where
  | notReady
  | packet (p : Packet)
  deriving DecidableEq, Repr

/-- What the host drives on the block's input ports for one step (30_encoding.md R82). -/
structure PortSample where
  rst : Bool
  cmdValid : Bool
  cmd : CmdWord
  deriving DecidableEq, Repr

/-- The machine: the block's one piece of state `q` (R20), and the values on its ports, which are the model's own fields
(log entries 1 and 2). -/
structure State where
  /-- the ring contents (R20) -/
  q : Ring
  /-- the response on `resp` while `resp_valid` = 1; nothing while it is 0 (30_encoding.md R82, R83) -/
  resp : Option Response
  /-- what the host will still drive on the input ports, oldest first (R22, R82) -/
  inputs : List PortSample
  deriving DecidableEq, Repr

/-- Model faults. The block itself raises none (60_exceptions.md R150); both mark the `None` cases that no command reaches
(20_memory.md R49, 93_implementation_defined.md I8). Safe: the model would stop where the block goes on. -/
inductive Fault where
  /-- RingPop on an empty ring; raised by the locator's false-header discard. Safe. -/
  | ringPopEmpty
  /-- RingPeek at an offset at or beyond the occupancy; raised by the locator's step 3 and by the unpacker. Safe. -/
  | ringPeekBeyond (offset : Nat)
  deriving DecidableEq, Repr

/-- Why the model gives no next state. -/
inductive Refusal where
  /-- A command with no meaning yet; raised by exec's refused arms only (there is none). Safe. -/
  | notModelled (mnemonic : String)
  /-- The host offered a reserved command word; raised by step (30_encoding.md R74, 60_exceptions.md R158). Safe: the
  spec gives such a word no behaviour. -/
  | reservedWord (r : Reject)
  deriving DecidableEq, Repr

/-- The machine right after reset: the ring is empty (10_state.md R32, 70_reset_and_hazards.md R170), no response is
presented (R171), and nothing has been offered yet (log entry 2). -/
def State.reset : State where
  q := []
  resp := none
  inputs := []

end Sys2Proof.Machine
end

