-- ==== Sys2Proof/Machine/Ops.lean ====
section
/-! DEFINITION. The ring primitives (20_memory.md R44 to R48) and the updates of State. There is no exception to take and
none to return from (60_exceptions.md R150, R156, R157). -/

namespace Sys2Proof.Machine

/-- `RingLen()` (R47). -/
def ringLen (q : Ring) : Nat := q.length

/-- `RingPush(b)` (R44): the oldest byte of a full ring is discarded first. -/
def ringPush (q : Ring) (b : Byte) : Ring :=
  (if ringLen q = Config.ringCapacity then q.drop 1 else q) ++ [b]

/-- `RingPop()` (R45): the front byte, or nothing, and the ring that is left. -/
def ringPop : Ring → Option Byte × Ring
  | [] => (none, [])
  | b :: rest => (some b, rest)

/-- `RingPeek(i)` (R46). -/
def ringPeek (q : Ring) (i : Nat) : Option Byte := q[i]?

/-- `RingDrop(n)` (R48). -/
def ringDrop (n : Nat) (q : Ring) : Ring := q.drop n

/-- Successive pushes, first byte first (42_commands.md R137). -/
def ringPushAll (q : Ring) (bs : List Byte) : Ring := bs.foldl ringPush q

/-- `q <- q'`. -/
def State.setQ (s : State) (q' : Ring) : State := { s with q := q' }

/-- Put a response on the response port, or none (30_encoding.md R83). -/
def State.setResp (s : State) (r : Option Response) : State := { s with resp := r }

/-- What the host will still drive. -/
def State.setInputs (s : State) (ps : List PortSample) : State := { s with inputs := ps }

/-- The block's part of the state at its reset value: the ring empty, no response (70_reset_and_hazards.md R170, R171). -/
def clearBlock (s : State) : State := (s.setQ []).setResp none

/-- No command is accepted: the block "holds `q` unchanged" (60_exceptions.md R165), and a response is presented only for
one cycle (30_encoding.md R83; log entry 4, DEDUCED). -/
def idle (s : State) : State := s.setResp none

/-- The next sample of the input ports and the state without it; nothing when the host drives nothing more. -/
def takeSample (s : State) : Option (PortSample × State) :=
  match s.inputs with
  | [] => none
  | p :: ps => some (p, s.setInputs ps)

/-- The sample that offers one command word (30_encoding.md R82, R83). -/
def offer (w : CmdWord) : PortSample := ⟨false, true, w⟩

end Sys2Proof.Machine
end

