-- ==== Sys2Proof/Machine/Flags.lean ====
section
/-! DEFINITION. The flag byte b23 (30_encoding.md R64, 41_bit_unpacker.md R115, R116). The block itself holds no flags
(10_state.md R23): these are fields of a packet. -/

namespace Sys2Proof.Machine

/-- "`is_flag_set(b, i)` is `((b >> i) & 1) == 1`" (R115). -/
def isFlagSet (b : Byte) (i : Nat) : Bool := ((b >>> i) &&& 1#8) == 1#8

/-- d1 is bit 0 of b23 (R64). -/
def flagD1 (b : Byte) : Bool := isFlagSet b 0
/-- d2 is bit 1 of b23 (R64). -/
def flagD2 (b : Byte) : Bool := isFlagSet b 1
/-- frame_lost is bit 2 of b23 (R64). -/
def flagFrameLost (b : Byte) : Bool := isFlagSet b 2
/-- failsafe is bit 3 of b23 (R64). -/
def flagFailsafe (b : Byte) : Bool := isFlagSet b 3

/-- "upper nibble must be zero" (R61, R64). -/
def reservedNibbleZero (b : Byte) : Bool := (b &&& Config.flagReservedMask) == 0#8

end Sys2Proof.Machine
end

