-- ==== Sys2Proof/Machine/Operands.lean ====
section
/-! DEFINITION. The frame and its fields: the window at the ring's front, frame validity (30_encoding.md R65), the payload
stream and the 16 channels (R63, 41_bit_unpacker.md R111), and the two other spellings of the channels that the spec
gives, the source's formulas (R112) and the wiring table (R114). -/

namespace Sys2Proof.Machine

/-- The 25 bytes `q[0..25]` of a ring that holds as many (00_scope.md R17). -/
def frontFrame (q : Ring) (h : 25 ≤ q.length) : Frame := Vector.ofFn fun i : Fin 25 => q[i.val]

/-- The window (00_scope.md R17), nothing when fewer than 25 bytes are held. -/
def windowOf (q : Ring) : Option Frame := if h : 25 ≤ q.length then some (frontFrame q h) else none

/-- Frame validity (30_encoding.md R65): header, footer and reserved nibble; no payload byte is checked. -/
def frameValid (w : Frame) : Bool :=
  w[0] == Config.header && w[24] == Config.footer && reservedNibbleZero w[23]

/-- A valid frame stands at the ring's front (00_scope.md R17). -/
def headsValidFrame (q : Ring) : Bool :=
  match windowOf q with
  | some w => frameValid w
  | none => false

/-- The payload stream `P = sum over j in 0..21 of (b(1+j) << 8j)` (30_encoding.md R63, 41_bit_unpacker.md R111), summed
on unbounded integers (00_scope.md R11). -/
def payloadStream (w : Frame) : PayloadStream :=
  BitVec.ofNat 176 ((List.finRange 22).map fun j => (w[1 + j.val]).toNat <<< (8 * j.val)).sum

/-- Channel k is `P[11k+10 : 11k]` (R111). -/
def channelOf (P : PayloadStream) (k : Nat) : Channel := P.extractLsb' (11 * k) 11

/-- The 16 channels of a frame (R111). -/
def channelsOf (w : Frame) : Vector Channel 16 :=
  Vector.ofFn fun k : Fin 16 => channelOf (payloadStream w) k.val

/-- A term of the source's formulas: frame byte `byte` shifted left by `left` and then right by `right` (one of the two is
0). -/
structure FormulaTerm where
  byte : Fin 25
  right : Nat
  left : Nat
  deriving DecidableEq, Repr

/-- The source's 16 formulas (41_bit_unpacker.md R112), term by term. -/
def sourceFormulas : List (List FormulaTerm) :=
  [ [⟨1, 0, 0⟩, ⟨2, 0, 8⟩],
    [⟨2, 3, 0⟩, ⟨3, 0, 5⟩],
    [⟨3, 6, 0⟩, ⟨4, 0, 2⟩, ⟨5, 0, 10⟩],
    [⟨5, 1, 0⟩, ⟨6, 0, 7⟩],
    [⟨6, 4, 0⟩, ⟨7, 0, 4⟩],
    [⟨7, 7, 0⟩, ⟨8, 0, 1⟩, ⟨9, 0, 9⟩],
    [⟨9, 2, 0⟩, ⟨10, 0, 6⟩],
    [⟨10, 5, 0⟩, ⟨11, 0, 3⟩],
    [⟨12, 0, 0⟩, ⟨13, 0, 8⟩],
    [⟨13, 3, 0⟩, ⟨14, 0, 5⟩],
    [⟨14, 6, 0⟩, ⟨15, 0, 2⟩, ⟨16, 0, 10⟩],
    [⟨16, 1, 0⟩, ⟨17, 0, 7⟩],
    [⟨17, 4, 0⟩, ⟨18, 0, 4⟩],
    [⟨18, 7, 0⟩, ⟨19, 0, 1⟩, ⟨20, 0, 9⟩],
    [⟨20, 2, 0⟩, ⟨21, 0, 6⟩],
    [⟨21, 5, 0⟩, ⟨22, 0, 3⟩] ]

/-- A formula's value on a frame: its terms OR-ed on unbounded integers, then `& 0x7FF` (R112, R113). -/
def formulaValue (w : Frame) (ts : List FormulaTerm) : Nat :=
  (ts.foldl (fun acc t => acc ||| ((w[t.byte]).toNat >>> t.right) <<< t.left) 0) &&& 0x7FF

/-- A row entry `bN[h:l] -> ch[H:L]` of the wiring table (R114). -/
structure ByteSpan where
  channel : Fin 16
  byte : Fin 25
  hi : Nat
  lo : Nat
  toHi : Nat
  toLo : Nat
  deriving DecidableEq, Repr

/-- The byte spans of channels 0 to 7 (R114). -/
def wiringLow : List ByteSpan :=
  [ ⟨0, 1, 7, 0, 7, 0⟩, ⟨0, 2, 2, 0, 10, 8⟩,
    ⟨1, 2, 7, 3, 4, 0⟩, ⟨1, 3, 5, 0, 10, 5⟩,
    ⟨2, 3, 7, 6, 1, 0⟩, ⟨2, 4, 7, 0, 9, 2⟩, ⟨2, 5, 0, 0, 10, 10⟩,
    ⟨3, 5, 7, 1, 6, 0⟩, ⟨3, 6, 3, 0, 10, 7⟩,
    ⟨4, 6, 7, 4, 3, 0⟩, ⟨4, 7, 6, 0, 10, 4⟩,
    ⟨5, 7, 7, 7, 0, 0⟩, ⟨5, 8, 7, 0, 8, 1⟩, ⟨5, 9, 1, 0, 10, 9⟩,
    ⟨6, 9, 7, 2, 5, 0⟩, ⟨6, 10, 4, 0, 10, 6⟩,
    ⟨7, 10, 7, 5, 2, 0⟩, ⟨7, 11, 7, 0, 10, 3⟩ ]

/-- The byte spans of channels 8 to 15 (R114). -/
def wiringHigh : List ByteSpan :=
  [ ⟨8, 12, 7, 0, 7, 0⟩, ⟨8, 13, 2, 0, 10, 8⟩,
    ⟨9, 13, 7, 3, 4, 0⟩, ⟨9, 14, 5, 0, 10, 5⟩,
    ⟨10, 14, 7, 6, 1, 0⟩, ⟨10, 15, 7, 0, 9, 2⟩, ⟨10, 16, 0, 0, 10, 10⟩,
    ⟨11, 16, 7, 1, 6, 0⟩, ⟨11, 17, 3, 0, 10, 7⟩,
    ⟨12, 17, 7, 4, 3, 0⟩, ⟨12, 18, 6, 0, 10, 4⟩,
    ⟨13, 18, 7, 7, 0, 0⟩, ⟨13, 19, 7, 0, 8, 1⟩, ⟨13, 20, 1, 0, 10, 9⟩,
    ⟨14, 20, 7, 2, 5, 0⟩, ⟨14, 21, 4, 0, 10, 6⟩,
    ⟨15, 21, 7, 5, 2, 0⟩, ⟨15, 22, 7, 0, 10, 3⟩ ]

/-- The wiring table (R114). -/
def wiring : List ByteSpan := wiringLow ++ wiringHigh

end Sys2Proof.Machine
end

