-- ==== Sys2Proof/Machine/Locator.lean ====
section
/-! DEFINITION. The frame locator (40_frame_locator.md): one pass of steps 1 to 4, and `Locate` in both modes of
RESYNC_MODE (R97, R98). -/

namespace Sys2Proof.Machine

/-- The locator's verdict (R91). -/
inductive Verdict where
  | accept
  | notReady
  deriving DecidableEq, Repr

/-- How one pass of steps 1 to 4 ends. `falseHeader` is `Locate`'s own tag: no output carries it (60_exceptions.md R152). -/
inductive PassEnd where
  | accept
  | notReady
  | falseHeader
  deriving DecidableEq, Repr

/-- Step 1 (R92): `while RingLen() > 25 and RingPeek(0) ≠ Some(0x0F): RingPop()`. -/
def resync : Ring → Ring
  | [] => []
  | b :: rest =>
    if ringLen (b :: rest) > Config.frameSize ∧ ringPeek (b :: rest) 0 ≠ some Config.header then resync rest
    else b :: rest

/-- Steps 2 to 4 on a ring that step 1 has left (R93, R95, R96, R99). -/
def checkFront (q : Ring) : Except Fault (PassEnd × Ring) :=
  if ringLen q < Config.frameSize ∨ ringPeek q 0 ≠ some Config.header then .ok (.notReady, q)
  else
    match ringPeek q 24, ringPeek q 23 with
    | some foot, some flags =>
      if foot ≠ Config.footer ∨ reservedNibbleZero flags = false then
        match ringPop q with
        | (some _, q') => .ok (.falseHeader, q')
        | (none, _) => .error .ringPopEmpty
      else .ok (.accept, q)
    | none, _ => .error (.ringPeekBeyond 24)
    | some _, none => .error (.ringPeekBeyond 23)

/-- Steps 1 to 4 once (R97). -/
def locatePass (q : Ring) : Except Fault (PassEnd × Ring) := checkFront (resync q)

/-- `Locate_POP_ONE` (R97): a false header costs one byte and ends the call (R96). -/
def locatePopOne (q : Ring) : Except Fault (Verdict × Ring) :=
  match locatePass q with
  | .error f => .error f
  | .ok (.accept, q') => .ok (.accept, q')
  | .ok (.notReady, q') => .ok (.notReady, q')
  | .ok (.falseHeader, q') => .ok (.notReady, q')

/-- The loop of `Locate_RESCAN` (R98), with at most `n` passes that end in a false header. -/
def rescanLoop : Nat → Ring → Except Fault (Verdict × Ring)
  | 0, q => .ok (.notReady, q)
  | n + 1, q =>
    match locatePass q with
    | .error f => .error f
    | .ok (.accept, q') => .ok (.accept, q')
    | .ok (.notReady, q') => .ok (.notReady, q')
    | .ok (.falseHeader, q') => rescanLoop n q'

/-- `Locate_RESCAN` (R98). Every false header removes a byte and needs 25, so `|q|` passes always suffice: the loop's own
bound is never what ends it (Laws/Locator.lean `locateRescan_unfold`). -/
def locateRescan (q : Ring) : Except Fault (Verdict × Ring) := rescanLoop (ringLen q) q

/-- `Locate` under a RESYNC_MODE (00_scope.md R9). -/
def locate : ResyncMode → Ring → Except Fault (Verdict × Ring)
  | .popOne, q => locatePopOne q
  | .rescan, q => locateRescan q

/-- Calls of `Locate_POP_ONE` with no push in between, "repeated until one returns `Accept` or removes nothing" (R98), at
most `n` of them after the first. -/
def repeatPopOne : Nat → Ring → Except Fault (Verdict × Ring)
  | 0, q => locatePopOne q
  | n + 1, q =>
    match locatePopOne q with
    | .error f => .error f
    | .ok (.accept, q') => .ok (.accept, q')
    | .ok (.notReady, q') => if ringLen q' = ringLen q then .ok (.notReady, q') else repeatPopOne n q'

end Sys2Proof.Machine
end

