-- ==== Sys2Proof/Machine/Unpacker.lean ====
section
/-! DEFINITION. The bit unpacker (41_bit_unpacker.md R119): the packet of a frame, and the removal of its 25 bytes (R118). -/

namespace Sys2Proof.Machine

/-- The packet of a frame (R117, R119). -/
def packetOf (w : Frame) : Packet where
  channels := channelsOf w
  d1 := flagD1 w[23]
  d2 := flagD2 w[23]
  frameLost := flagFrameLost w[23]
  failsafe := flagFailsafe w[23]

/-- `b[i] <- q[i] for i in 0..24` by RingPeek (R119): on fewer than 25 bytes the first peek that gives nothing is at
offset `|q|`. -/
def readWindow (q : Ring) : Except Fault Frame :=
  match windowOf q with
  | some w => .ok w
  | none => .error (.ringPeekBeyond (ringLen q))

/-- `Unpack()` (R119). -/
def unpack (q : Ring) : Except Fault (Packet × Ring) :=
  match readWindow q with
  | .error f => .error f
  | .ok w => .ok (packetOf w, ringDrop Config.frameSize q)

end Sys2Proof.Machine
end

