-- ==== Sys2Proof/Machine/Commands.lean ====
section
/-! DEFINITION. The meanings of the three commands (42_commands.md R131, R132, R133, R134). -/

namespace Sys2Proof.Machine

/-- NEW (R131): `q <- []`, no response. -/
def execNew (s : State) : Host.Outcome State Fault Refusal :=
  .next ((s.setQ []).setResp none)

/-- PUSH_BYTE (R132): `RingPush(data)`, no response. -/
def execPushByte (data : Byte) (s : State) : Host.Outcome State Fault Refusal :=
  .next ((s.setQ (ringPush s.q data)).setResp none)

/-- TRY_PARSE under a RESYNC_MODE (R133, R134): the locator, then on Accept the unpacker. -/
def tryParseIn (m : ResyncMode) (s : State) : Host.Outcome State Fault Refusal :=
  match locate m s.q with
  | .error f => .fault f
  | .ok (.notReady, q') => .next ((s.setQ q').setResp (some .notReady))
  | .ok (.accept, q') =>
    match unpack q' with
    | .error f => .fault f
    | .ok (p, q'') => .next ((s.setQ q'').setResp (some (.packet p)))

/-- TRY_PARSE of this hardware (R133), whose mode is POP_ONE (00_scope.md R9). -/
def execTryParse (s : State) : Host.Outcome State Fault Refusal := tryParseIn Config.resyncMode s

end Sys2Proof.Machine
end

