-- ==== Sys2Proof/Machine/Dispatch.lean ====
section
/-! DEFINITION. One arm per command. -/

namespace Sys2Proof.Machine

def exec (i : Instr) (s : State) : Host.Outcome State Fault Refusal :=
  match i with
  | .pushByte data => Sys2Proof.Machine.execPushByte data s
  | .tryParse => Sys2Proof.Machine.execTryParse s
  | .new => Sys2Proof.Machine.execNew s

end Sys2Proof.Machine
end

