-- ==== Sys2Proof/Machine/Step.lean ====
section
/-! DEFINITION. One step: the next sample of the input ports (30_encoding.md R82, R83; 70_reset_and_hazards.md R171). -/

namespace Sys2Proof.Machine

/-- One step. While `rst` = 1 no command is accepted and the ring is emptied (70_reset_and_hazards.md R171); an offered
command word is decoded and executed, and a reserved one refused (30_encoding.md R74); with nothing offered the ring
is held (60_exceptions.md R165). -/
def step (s : State) : Host.Outcome State Fault Refusal :=
  match takeSample s with
  | none => .next (idle s)
  | some (p, s') =>
    if p.rst then .next (clearBlock s')
    else if p.cmdValid then
      match decode p.cmd with
      | .ok i => exec i s'
      | .error r => .refused (.reservedWord r)
    else .next (idle s')

/-- `s` with the command word of bits `w` offered next by the host, ahead of all it will drive anyway: the block fetches
nothing (10_state.md R22), its commands come from the host (log entry 2). -/
def State.withFetchWord (s : State) (_nbits w : Nat) : State :=
  s.setInputs (offer (wordOfNat w) :: s.inputs)

end Sys2Proof.Machine
end

