-- ==== Sys2Proof/Machine/Ports.lean ====
section
/-! DEFINITION. The block's outputs (30_encoding.md R82): the packet vector (R80), the response word (R79) and the status
output `occupancy` (10_state.md R24). -/

namespace Sys2Proof.Machine

/-- The channel field `pkt[175:0]`: channel k at bits `11k+10 : 11k` (30_encoding.md R80). -/
def channelField (p : Packet) : BitVec 176 :=
  BitVec.ofNat 176 ((List.finRange 16).map fun k => (p.channels[k.val]).toNat <<< (11 * k.val)).sum

/-- The four flags `pkt[179:176]`: failsafe, frame_lost, d2, d1 from the top (30_encoding.md R80). -/
def flagField (p : Packet) : BitVec 4 :=
  BitVec.ofBool p.failsafe ++ BitVec.ofBool p.frameLost ++ BitVec.ofBool p.d2 ++ BitVec.ofBool p.d1

/-- The packet vector `pkt[179:0]` (30_encoding.md R80). -/
def packetVector (p : Packet) : PacketVector := flagField p ++ channelField p

/-- The response word `resp[180:0]` (30_encoding.md R79). -/
def respWord : Response → RespWord
  | .notReady => 0#1 ++ 0#180
  | .packet p => 1#1 ++ packetVector p

/-- `occupancy` (10_state.md R24). -/
def occupancy (s : State) : BitVec 6 := BitVec.ofNat 6 (ringLen s.q)

/-- `resp_valid` (30_encoding.md R82). -/
def respValid (s : State) : Bool := s.resp.isSome

/-- `resp`, while `resp_valid` = 1 (30_encoding.md R82, R83); the spec gives it no value otherwise. -/
def respPort (s : State) : Option RespWord := s.resp.map respWord

/-- `cmd_ready` in a step whose inputs are `p`: a step begins only when the command before has taken its whole effect
(R83), so only reset makes the block not ready (70_reset_and_hazards.md R171; log entry 5). -/
def cmdReady (p : PortSample) : Bool := !p.rst

end Sys2Proof.Machine
end

