-- ==== Sys2Proof/Machine/Program.lean ====
section
/-! DEFINITION. The host's side: lists of commands and the responses they bring (10_state.md R22), and the pseudo-commands
PUSH_BYTES (42_commands.md R137) and DRAIN_AND_PARSE (R141). -/

namespace Sys2Proof.Machine

/-- The commands in order from `s`: the responses they bring, oldest first, and how the run ends. A fault or a refusal
ends it for good (60_exceptions.md R158). -/
def runScript : List Instr → State → List Response × Host.Outcome State Fault Refusal
  | [], s => ([], .next s)
  | i :: is, s =>
    match exec i s with
    | .next t => (t.resp.toList ++ (runScript is t).1, (runScript is t).2)
    | .fault f => ([], .fault f)
    | .refused r => ([], .refused r)

/-- PUSH_BYTES (R137): "expands to n PUSH_BYTE commands". -/
def expandPushBytes (bs : List Byte) : List Instr := bs.map .pushByte

/-- The bytes that a list of commands pushes, in order. -/
def pushedBytes : List Instr → List Byte
  | [] => []
  | .pushByte b :: is => b :: pushedBytes is
  | .tryParse :: is => pushedBytes is
  | .new :: is => pushedBytes is

/-- DRAIN_AND_PARSE (R141), given what the source's successive reads return: pushes until the first read that has no
byte, then one TRY_PARSE. Nothing when every listed read has a byte: the helper has not ended then
(70_reset_and_hazards.md R182; log entry 8). -/
def expandDrain : List (Option Byte) → Option (List Instr)
  | [] => none
  | none :: _ => some [.tryParse]
  | some b :: reads => (expandDrain reads).map (.pushByte b :: ·)

/-- The samples by which the host offers a list of commands, one a step (30_encoding.md R83). -/
def offerAll (is : List Instr) : List PortSample := is.map fun i => offer (encode i)

end Sys2Proof.Machine
end

