-- ==== Sys2Proof/Machine/Assembler.lean ====
section
/-! DEFINITION. The assembler's spelling (30_encoding.md R76), one command a line, a line being a list of characters: a
reader, a printer, and the expansion of a line to commands (42_commands.md R137, R141). What R76 leaves open (blanks,
letters of hexadecimal digits) is log entry 9. -/

namespace Sys2Proof.Machine

/-- A space or a tab. -/
def isBlank (c : Char) : Bool := c == ' ' || c == '\t'

/-- The small letter of a capital one: mnemonics are case-insensitive (R76). -/
def smallLetter (c : Char) : Char := if 65 ≤ c.toNat ∧ c.toNat ≤ 90 then Char.ofNat (c.toNat + 32) else c

/-- The line without the blanks at its two ends. -/
def trimBlanks (cs : List Char) : List Char := ((cs.dropWhile isBlank).reverse.dropWhile isBlank).reverse

/-- A digit's value, below the base. -/
def digitValue (base : Nat) (c : Char) : Option Nat :=
  let n := c.toNat
  let v := if 48 ≤ n ∧ n ≤ 57 then some (n - 48)
    else if 97 ≤ n ∧ n ≤ 102 then some (n - 87)
    else if 65 ≤ n ∧ n ≤ 70 then some (n - 55)
    else none
  v.filter (· < base)

/-- The digits of a number, most significant first, after the value `acc`. -/
def readDigits (base : Nat) : Nat → List Char → Option Nat
  | acc, [] => some acc
  | acc, c :: cs =>
    match digitValue base c with
    | some d => readDigits base (acc * base + d) cs
    | none => none

/-- "numbers in hexadecimal with `0x` or in decimal" (R76). -/
def readNumber : List Char → Option Nat
  | [] => none
  | '0' :: 'x' :: c :: cs => readDigits 16 0 (c :: cs)
  | c :: cs => readDigits 10 0 (c :: cs)

/-- The pieces between the commas. -/
def splitCommas : List Char → List (List Char)
  | [] => [[]]
  | c :: cs =>
    if c = ',' then [] :: splitCommas cs
    else match splitCommas cs with
      | [] => [[c]]
      | piece :: pieces => (c :: piece) :: pieces

/-- Each piece as a number; nothing if one is none. -/
def readNumbers : List (List Char) → Option (List Nat)
  | [] => some []
  | piece :: pieces =>
    match readNumber (trimBlanks piece), readNumbers pieces with
    | some n, some ns => some (n :: ns)
    | _, _ => none

/-- The operands of push_bytes: "n = 0 expands to nothing" (R76). -/
def readOperands (cs : List Char) : Option (List Nat) :=
  if cs = [] then some [] else readNumbers (splitCommas cs)

/-- The mnemonic `push_byte` (R76). -/
def namePushByte : List Char := ['p', 'u', 's', 'h', '_', 'b', 'y', 't', 'e']

/-- The mnemonic `push_bytes` (R76). -/
def namePushBytes : List Char := ['p', 'u', 's', 'h', '_', 'b', 'y', 't', 'e', 's']

/-- The mnemonic `try_parse` (R76). -/
def nameTryParse : List Char := ['t', 'r', 'y', '_', 'p', 'a', 'r', 's', 'e']

/-- The mnemonic `new` (R76). -/
def nameNew : List Char := ['n', 'e', 'w']

/-- The mnemonic `drain_and_parse` (R76). -/
def nameDrain : List Char := ['d', 'r', 'a', 'i', 'n', '_', 'a', 'n', 'd', '_', 'p', 'a', 'r', 's', 'e']

/-- The line whose mnemonic, in small letters, is `name` and whose operand text is `rest`. -/
def readAs (name rest : List Char) : Option AsmLine :=
  if name = namePushByte then (readNumber rest).map .pushByte
  else if name = namePushBytes then (readOperands rest).map .pushBytes
  else if rest ≠ [] then none
  else if name = nameTryParse then some .tryParse
  else if name = nameNew then some .new
  else if name = nameDrain then some .drainAndParse
  else none

/-- A line read by R76; nothing if it is none, or names a number that is no byte. -/
def parseLine (cs : List Char) : Option AsmLine :=
  let line := trimBlanks cs
  let name := (line.takeWhile fun c => !isBlank c).map smallLetter
  let rest := trimBlanks (line.dropWhile fun c => !isBlank c)
  (readAs name rest).filter AsmLine.wellFormed

/-- One hexadecimal digit. -/
def hexDigit (n : Nat) : Char := Char.ofNat (if n < 10 then 48 + n else 87 + n)

/-- A byte as `0x` and two hexadecimal digits. -/
def printNumber (n : Nat) : List Char := ['0', 'x', hexDigit (n / 16 % 16), hexDigit (n % 16)]

/-- Numbers with a comma and a space between them. -/
def printNumbers : List Nat → List Char
  | [] => []
  | [n] => printNumber n
  | n :: m :: ns => printNumber n ++ [',', ' '] ++ printNumbers (m :: ns)

/-- A line's spelling (R76). -/
def printLine : AsmLine → List Char
  | .pushByte n => namePushByte ++ ' ' :: printNumber n
  | .tryParse => nameTryParse
  | .new => nameNew
  | .pushBytes ns => namePushBytes ++ ' ' :: printNumbers ns
  | .drainAndParse => nameDrain

/-- The commands a well-formed line stands for (R76, 42_commands.md R137, R141), given what the reads of a byte source
return; nothing for an ill-formed line, or a drain that does not end. -/
def expandLine (l : AsmLine) (reads : List (Option Byte)) : Option (List Instr) :=
  if l.wellFormed then
    match l with
    | .pushByte n => some [.pushByte (BitVec.ofNat 8 n)]
    | .tryParse => some [.tryParse]
    | .new => some [.new]
    | .pushBytes ns => some (expandPushBytes (ns.map (BitVec.ofNat 8)))
    | .drainAndParse => expandDrain reads
  else none

end Sys2Proof.Machine
end

