-- ==== Sys2Proof/Machine/Realization.lean ====
section
/-! DEFINITION. One realization of the ring, a circular buffer (10_state.md R26, 20_memory.md R50). It is no part of State:
"Only `q` is architectural" (R26). The cells outside the occupied positions are left free: every storage content is
covered (70_reset_and_hazards.md R172). -/

namespace Sys2Proof.Machine

/-- `storage[0..49]`, `head`, `count` (10_state.md R26). -/
structure RingStore where
  storage : Vector Byte 50
  head : Nat
  count : Nat
  deriving DecidableEq, Repr

/-- `head` in [0, 49] and `count` in [0, 50] (R26). -/
def storeWf (r : RingStore) : Bool := decide (r.head < 50) && decide (r.count ≤ 50)

/-- The cell at a position taken modulo 50. -/
def storeCell (r : RingStore) (i : Nat) : Byte := r.storage[i % 50]'(Nat.mod_lt _ (by decide))

/-- The abstract contents `[storage[(head + i) mod 50] for i in 0..count]` (R26). -/
def storeContents (r : RingStore) : Ring := (List.range r.count).map fun i => storeCell r (r.head + i)

/-- The empty store that reset leaves: count 0, and any cells and head (10_state.md R32, 70_reset_and_hazards.md R172). -/
def storeReset (r : RingStore) : RingStore := { r with count := 0 }

/-- The first line of the realized RingPush: a full ring's head moves on and the count falls to 49 (R50). -/
def storeEvict (r : RingStore) : RingStore :=
  if r.count = 50 then { r with head := (r.head + 1) % 50, count := 49 } else r

/-- The second line of the realized RingPush: the byte goes to the cell behind the last (R50). -/
def storeAppend (r : RingStore) (b : Byte) : RingStore :=
  { r with
    storage := r.storage.set ((r.head + r.count) % 50) b (Nat.mod_lt _ (by decide))
    count := r.count + 1 }

/-- RingPush, realized (R50). -/
def storePush (r : RingStore) (b : Byte) : RingStore := storeAppend (storeEvict r) b

/-- RingPop, realized (R50). -/
def storePop (r : RingStore) : Option Byte × RingStore :=
  if r.count = 0 then (none, r)
  else (some (storeCell r r.head), { r with head := (r.head + 1) % 50, count := r.count - 1 })

/-- RingPeek, realized (R50). -/
def storePeek (r : RingStore) (i : Nat) : Option Byte :=
  if i < r.count then some (storeCell r (r.head + i)) else none

/-- RingLen, realized (R50). -/
def storeLen (r : RingStore) : Nat := r.count

/-- RingDrop, realized (R50), for `n <= count` (R48). -/
def storeDrop (n : Nat) (r : RingStore) : RingStore :=
  { r with head := (r.head + n) % 50, count := r.count - n }

end Sys2Proof.Machine
end

