-- ==== Sys2Proof/Safety.lean ====
section
/-! DEFINITION. What counts as a safe state and a safe run, in the terms the statements use. -/

namespace Sys2Proof.Machine

/-- The ring invariant holds (10_state.md R27): at most 50 bytes are held. -/
abbrev State.Inv (s : State) : Prop := Ring.wf s.q = true

/-- The outcome is a next state: the command completed (60_exceptions.md R150). -/
def Completes (o : Host.Outcome State Fault Refusal) : Prop := ∃ t, o = .next t

/-- What the block shows for the command just taken, apart from the host's own queue: the ring it leaves and its
response (10_state.md R20, R29). -/
def blockView : Host.Outcome State Fault Refusal → Option (Ring × Option Response)
  | .next t => some (t.q, t.resp)
  | .fault _ => none
  | .refused _ => none

/-- The ring on which TRY_PARSE only waits: fewer than 25 bytes, or exactly 25 whose first is no header
(40_frame_locator.md R103). -/
def atFixpoint (q : Ring) : Bool :=
  decide (q.length < 25) || (decide (q.length = 25) && q.head? != some Config.header)

/-- None of the bytes is a header byte. -/
def headerFree (bs : List Byte) : Bool := bs.all fun b => b != Config.header

/-- The last 50 bytes of a sequence, all of it when it is shorter (42_commands.md R138). -/
def lastFifty (bs : List Byte) : List Byte := bs.drop (bs.length - 50)

end Sys2Proof.Machine
end

