-- ==== Sys2Proof/Certificates/Slice0/Obligations.lean ====
section
/-! DEFINITION. The statements for the provers, in the order of spec/: encoding, ring, locator, unpacker, commands, reset,
the step and the host's side. Each docstring names the rule it formalises. -/

open Sys2Proof Sys2Proof.Machine

/-! ### Encoding -/

/-- Encoding and decoding are each other's inverse, over every command and every word (30_encoding.md §2, R71, R75). -/
def Obligations.DecodeAndEncodeAgree : Prop :=
  (∀ i : Instr, i.wellFormed = true → decode (encode i) = .ok i) ∧
  (∀ (w : CmdWord) (i : Instr), decode w = .ok i → encode i = w)

/-- R75: the decoder over all 1024 words, and its counts. -/
def Obligations.DecoderFollowsTheOpcodeMap : Prop :=
  (∀ w : CmdWord,
    (opField w = 0b00#2 → decode w = .ok (.pushByte (dataField w))) ∧
    (opField w = 0b01#2 → dataField w = 0x00#8 → decode w = .ok .tryParse) ∧
    (opField w = 0b01#2 → dataField w ≠ 0x00#8 → ∃ r, decode w = .error r) ∧
    (opField w = 0b10#2 → dataField w = 0x00#8 → decode w = .ok .new) ∧
    (opField w = 0b10#2 → dataField w ≠ 0x00#8 → ∃ r, decode w = .error r) ∧
    (opField w = 0b11#2 → ∃ r, decode w = .error r)) ∧
  let count (f : Except Reject Instr → Bool) : Nat :=
    (List.range 1024).countP fun n => f (decode (BitVec.ofNat 10 n))
  count (fun r => match r with | .ok (.pushByte _) => true | _ => false) = 256 ∧
  count (fun r => match r with | .ok .tryParse => true | _ => false) = 1 ∧
  count (fun r => match r with | .ok .new => true | _ => false) = 1 ∧
  count (fun r => match r with | .error _ => true | _ => false) = 766

/-- The words that decode are the words of the opcode table's rows and the words the reserved-word check passes, and a
decoded command's word is of that command's row (30_encoding.md §2, R71, R73, R74). -/
def Obligations.DecodedWordsAreTheTablesWords : Prop :=
  (∀ w : CmdWord, (∃ i, decode w = .ok i) ↔ wordLegal w = true) ∧
  (∀ w : CmdWord, wordLegal w = true ↔ ∃ r ∈ opTable, r.holds w = true) ∧
  (∀ (w : CmdWord) (i : Instr), decode w = .ok i → (opRow i).holds w = true)

/-- Words written out from 30_encoding.md §2 (the list of 95_test_vectors.md §2.2) decode to what they stand for. -/
def Obligations.WrittenOutWordsDecode : Prop :=
  decode 0b0000000000#10 = .ok (.pushByte 0x00#8) ∧
  decode 0b0000001111#10 = .ok (.pushByte 0x0F#8) ∧
  decode 0b0011111111#10 = .ok (.pushByte 0xFF#8) ∧
  decode 0b0100000000#10 = .ok .tryParse ∧
  decode 0b1000000000#10 = .ok .new ∧
  decode 0b0100000001#10 = .error (.nonzeroData 0b0100000001#10) ∧
  decode 0b1010000000#10 = .error (.nonzeroData 0b1010000000#10) ∧
  decode 0b1100000000#10 = .error (.reservedOp 0b1100000000#10) ∧
  decode 0b1111111111#10 = .error (.reservedOp 0b1111111111#10)

/-- R79 and R80: the response word and the packet vector, field by field. -/
def Obligations.ResponseWordFields : Prop :=
  (∀ (p : Packet) (k : Nat) (hk : k < 16), (packetVector p).extractLsb' (11 * k) 11 = p.channels[k]) ∧
  (∀ p : Packet, (packetVector p).getLsbD 176 = p.d1 ∧ (packetVector p).getLsbD 177 = p.d2 ∧
    (packetVector p).getLsbD 178 = p.frameLost ∧ (packetVector p).getLsbD 179 = p.failsafe) ∧
  (∀ p : Packet, (respWord (.packet p)).getLsbD 180 = true ∧
    (respWord (.packet p)).extractLsb' 0 180 = packetVector p) ∧
  (respWord .notReady).getLsbD 180 = false ∧ (respWord .notReady).extractLsb' 0 180 = 0#180

/-- R81: a decoded frame's packet vector is its low flag nibble above its payload stream. -/
def Obligations.PacketVectorIsFlagsAbovePayload : Prop :=
  ∀ w : Frame, packetVector (packetOf w) = (w[23].extractLsb' 0 4 ++ payloadStream w : BitVec (4 + 176))

/-! ### The ring -/

/-- R44: a push appends, and drops the oldest byte of a full ring first. -/
def Obligations.RingPushEvictsTheOldest : Prop :=
  ∀ (q : Ring) (b : Byte), q.length ≤ 50 →
    (ringPush q b).length = min (q.length + 1) 50 ∧
    ringPeek (ringPush q b) ((ringPush q b).length - 1) = some b ∧
    (q.length = 50 → ringPush q b = q.drop 1 ++ [b]) ∧
    (q.length < 50 → ringPush q b = q ++ [b])

/-- R45 and R46: RingPop and RingPeek, with their defined results outside the occupancy. -/
def Obligations.RingPopAndPeekResults : Prop :=
  (∀ q : Ring, q.length = 0 → ringPop q = (none, q)) ∧
  (∀ (q : Ring) (h : 0 < q.length), ringPop q = (some q[0], q.drop 1)) ∧
  (∀ (q : Ring) (i : Nat) (h : i < q.length), ringPeek q i = some q[i]) ∧
  (∀ (q : Ring) (i : Nat), q.length ≤ i → ringPeek q i = none)

/-- 20_memory.md §2 (R48): a bulk removal is as many pops, and the locator's Accept gives the unpacker its precondition. -/
def Obligations.RingDropIsSuccessivePops : Prop :=
  (∀ (n : Nat) (q : Ring), n ≤ q.length → ringDrop n q = (fun r => (ringPop r).2)^[n] q) ∧
  (∀ (m : ResyncMode) (q q' : Ring), locate m q = .ok (.accept, q') → 25 ≤ q'.length)

/-- R50: the circular buffer does to its contents what the ring primitives do, from every well-formed store;
emptied, it holds nothing, whatever its cells and head (10_state.md R32). -/
def Obligations.CircularBufferRealizesTheRing : Prop :=
  ∀ r : RingStore, storeWf r = true →
    (∀ b, storeWf (storePush r b) = true ∧ storeContents (storePush r b) = ringPush (storeContents r) b) ∧
    (storeWf (storePop r).2 = true ∧ (storePop r).1 = (ringPop (storeContents r)).1 ∧
      storeContents (storePop r).2 = (ringPop (storeContents r)).2) ∧
    (∀ i, storePeek r i = ringPeek (storeContents r) i) ∧
    storeLen r = ringLen (storeContents r) ∧
    (∀ n, n ≤ storeLen r → storeWf (storeDrop n r) = true ∧
      storeContents (storeDrop n r) = ringDrop n (storeContents r)) ∧
    (storeWf (storeReset r) = true ∧ storeContents (storeReset r) = [])

/-! ### The frame locator -/

/-- R92: step 1 is the bounded loop, and what it can and cannot remove. -/
def Obligations.ResyncRemovesNoHeader : Prop :=
  ∀ q : Ring,
    resync q = (if ringLen q > 25 ∧ ringPeek q 0 ≠ some 0x0F#8 then resync (ringPop q).2 else q) ∧
    ((resync q).length ≤ 25 ∨ ringPeek (resync q) 0 = some 0x0F#8) ∧
    (∃ gone, q = gone ++ resync q ∧ headerFree gone = true) ∧
    (25 ≤ q.length → 25 ≤ (resync q).length) ∧
    (q.length ≤ 25 → resync q = q)

/-- R102: how much one Locate call can remove, in either mode. -/
def Obligations.LocateRemovalBound : Prop :=
  ∀ (m : ResyncMode) (q : Ring), ∃ v q', locate m q = .ok (v, q') ∧ q' <:+ q ∧
    q.length - q'.length ≤ q.length - 24 ∧
    (q.length ≤ 50 → q.length - q'.length ≤ 26) ∧
    (q.length ≤ 24 → q' = q)

/-- R103: a NotReady call removes nothing exactly at the fixpoint, which lasts, and a run of calls reaches a packet or the
fixpoint within `|q| - 24` calls. -/
def Obligations.NotReadyCallsReachTheFixpoint : Prop :=
  (∀ (m : ResyncMode) (s t : State), tryParseIn m s = .next t → t.resp = some .notReady →
    (t.q = s.q ↔ atFixpoint s.q = true) ∧ (atFixpoint s.q = false → t.q.length < s.q.length)) ∧
  (∀ (m : ResyncMode) (s : State), atFixpoint s.q = true →
    ∃ t, tryParseIn m s = .next t ∧ t.resp = some .notReady ∧ t.q = s.q) ∧
  (∀ s : State, ∃ (k : Nat) (rs : List Response) (t : State), k ≤ s.q.length - 24 ∧
    runScript (List.replicate k .tryParse) s = (rs, .next t) ∧
    (atFixpoint t.q = true ∨ ∃ p, rs.getLast? = some (.packet p)))

/-- R98: RESCAN is its loop, its removals are bounded, and it gives what repeated POP_ONE calls give. -/
def Obligations.RescanIsRepeatedPopOne : Prop :=
  (∀ q : Ring, locate .rescan q =
    match locatePass q with
    | .error f => .error f
    | .ok (.accept, q') => .ok (.accept, q')
    | .ok (.notReady, q') => .ok (.notReady, q')
    | .ok (.falseHeader, q') => locate .rescan q') ∧
  (∀ (q q' : Ring) (v : Verdict), locate .rescan q = .ok (v, q') → q.length - q'.length ≤ q.length - 24) ∧
  (∀ (q : Ring) (n : Nat), q.length ≤ n → repeatPopOne n q = locate .rescan q)

/-- 40_frame_locator.md §5 (R104): a POP_ONE call discards header-free bytes and at most one false header, and no call, in
either mode, touches a ring that heads a valid frame. -/
def Obligations.LocatorDiscardsOnlyGarbage : Prop :=
  (∀ (q q' : Ring) (v : Verdict), locate .popOne q = .ok (v, q') →
    ∃ garbage header, q = garbage ++ header ++ q' ∧ headerFree garbage = true ∧
      (header = [] ∨ (v = .notReady ∧ header = [0x0F#8] ∧ 25 ≤ (header ++ q').length ∧
        headsValidFrame (header ++ q') = false))) ∧
  (∀ (m : ResyncMode) (q : Ring), headsValidFrame q = true → locate m q = .ok (.accept, q))

/-- R105: what an Accept says, in either mode. -/
def Obligations.AcceptFindsTheFirstFrame : Prop :=
  ∀ (m : ResyncMode) (q q' : Ring), locate m q = .ok (.accept, q') →
    25 ≤ q'.length ∧ headsValidFrame q' = true ∧
    ∃ front, q = front ++ q' ∧
      (m = .popOne → headerFree front = true) ∧
      (m = .rescan → ∀ (i : Nat) (h : i < front.length), front[i] = 0x0F#8 →
        headsValidFrame (q.drop i) = false)

/-! ### The bit unpacker -/

/-- R63 and R111: the payload stream takes its bits from the payload bytes in order, and channel k is bits
`11k + 10 : 11k` of it. -/
def Obligations.ChannelsAreElevenBitFields : Prop :=
  ∀ w : Frame,
    (payloadStream w).toNat = ((List.finRange 22).map fun j => (w[1 + j.val]).toNat * 2 ^ (8 * j.val)).sum ∧
    (∀ (j m : Nat) (hj : j < 22), m < 8 → (payloadStream w).getLsbD (8 * j + m) = w[1 + j].getLsbD m) ∧
    (∀ (k : Nat) (hk : k < 16), (packetOf w).channels[k] = (payloadStream w).extractLsb' (11 * k) 11) ∧
    (∀ (k i : Nat) (hk : k < 16) (hi : i < 11),
      ((packetOf w).channels[k]).getLsbD i = w[1 + (11 * k + i) / 8].getLsbD ((11 * k + i) % 8))

/-- R112: the source's formulas give the same channels on every frame. -/
def Obligations.SourceFormulasGiveTheChannels : Prop :=
  ∀ (w : Frame) (k : Fin 16),
    ((packetOf w).channels[k]).toNat = formulaValue w (sourceFormulas[k.val]'(k.isLt))

/-- R114: the wiring table gives the same channels, uses every payload bit once, and spans three bytes for channels 2, 5,
10 and 13 and two for the others. -/
def Obligations.WiringTableGivesTheChannels : Prop :=
  (∀ (w : Frame), ∀ sp ∈ wiring, ∀ i, i ≤ sp.hi - sp.lo →
    ((packetOf w).channels[sp.channel]).getLsbD (sp.toLo + i) = (w[sp.byte]).getLsbD (sp.lo + i)) ∧
  (∀ sp ∈ wiring, sp.lo ≤ sp.hi ∧ sp.hi < 8 ∧ sp.toHi = sp.toLo + (sp.hi - sp.lo) ∧ sp.toHi < 11) ∧
  (∀ byte : Fin 25, 1 ≤ byte.val → byte.val ≤ 22 → ∀ bit : Fin 8,
    wiring.countP (fun sp => sp.byte == byte && decide (sp.lo ≤ bit.val) && decide (bit.val ≤ sp.hi)) = 1) ∧
  (∀ (k : Fin 16) (bit : Fin 11),
    wiring.countP (fun sp => sp.channel == k && decide (sp.toLo ≤ bit.val) && decide (bit.val ≤ sp.toHi)) = 1) ∧
  (∀ k : Fin 16, wiring.countP (fun sp => sp.channel == k) = if k ∈ [2, 5, 10, 13] then 3 else 2) ∧
  (∀ sp ∈ wiringLow, sp.channel.val ≤ 7 ∧ 1 ≤ sp.byte.val ∧ sp.byte.val ≤ 11) ∧
  wiringHigh = wiringLow.map fun sp => { sp with channel := sp.channel + 8, byte := sp.byte + 11 }

/-- R115: each flag is its own bit of b23. -/
def Obligations.FlagsAreTheirOwnBits : Prop :=
  (∀ (b : Byte) (i : Nat), isFlagSet b i = b.getLsbD i) ∧
  (∀ w : Frame, (packetOf w).d1 = w[23].getLsbD 0 ∧ (packetOf w).d2 = w[23].getLsbD 1 ∧
    (packetOf w).frameLost = w[23].getLsbD 2 ∧ (packetOf w).failsafe = w[23].getLsbD 3)

/-- R116: the header, the footer and the upper nibble of b23 do not reach the packet, and that nibble is zero whenever the
unpacker runs. -/
def Obligations.BoundaryBitsDoNotReachThePacket : Prop :=
  (∀ w w' : Frame, (∀ (j : Nat) (hj : j < 22), w[1 + j] = w'[1 + j]) →
    (∀ i, i < 4 → w[23].getLsbD i = w'[23].getLsbD i) → packetOf w = packetOf w') ∧
  (∀ (m : ResyncMode) (q q' : Ring) (w : Frame), locate m q = .ok (.accept, q') → windowOf q' = some w →
    ∀ i, 4 ≤ i → w[23].getLsbD i = false)

/-- R120: channels are in [0, 2047], and every packet, with its channels chosen independently, is some valid frame's. -/
def Obligations.EveryPacketIsReachable : Prop :=
  (∀ (p : Packet) (k : Nat) (hk : k < 16), (p.channels[k]).toNat ≤ 2047) ∧
  (∀ p : Packet, ∃ w : Frame, frameValid w = true ∧ packetOf w = p)

/-- The source's worked example, scenario S1 (41_bit_unpacker.md R121). -/
def Obligations.WorkedExampleS1 : Prop :=
  packetOf #v[0x0F, 0xE0, 0x03, 0x1F, 0x58, 0xC0, 0x07, 0x16, 0xB0, 0x80, 0x05, 0x2C, 0x60, 0x01, 0x0B, 0xF8, 0xC0, 0x07,
      0x00, 0x00, 0x00, 0x00, 0x00, 0x03, 0x00] =
    { channels := #v[992, 992, 352, 992, 352, 352, 352, 352, 352, 352, 992, 992, 0, 0, 0, 0]
      d1 := true, d2 := true, frameLost := false, failsafe := false }

/-! ### The commands -/

/-- R131: NEW empties the ring, from every state, with no response, and does what the reset input does. -/
def Obligations.NewEmptiesTheRing : Prop :=
  (∀ s : State, exec .new s = .next { q := [], resp := none, inputs := s.inputs }) ∧
  (∀ s t : State, exec .new s = .next t → occupancy t = 0#6) ∧
  (∀ (s : State) (p : PortSample) (ps : List PortSample), s.inputs = p :: ps → p.rst = true →
    step s = exec .new (s.setInputs ps))

/-- R132: PUSH_BYTE is RingPush, from every state, with no response. -/
def Obligations.PushByteAppendsItsByte : Prop :=
  (∀ (s : State) (b : Byte), exec (.pushByte b) s =
    .next { q := (if s.q.length = 50 then s.q.drop 1 else s.q) ++ [b], resp := none, inputs := s.inputs }) ∧
  (∀ (s t : State) (b : Byte), s.Inv → exec (.pushByte b) s = .next t →
    (occupancy t).toNat = min ((occupancy s).toNat + 1) 50)

/-- The frame of PUSH_BYTE (42_commands.md §2): it stores one byte at the back, offset `|q|` or, on a full ring, 49; every
other byte reads as before, on a full ring one offset nearer the front; the host's queue is untouched. -/
def Obligations.PushByteFrame : Prop :=
  ∀ (s t : State) (b : Byte), s.Inv → exec (.pushByte b) s = .next t →
    t.inputs = s.inputs ∧
    (s.q.length < 50 → ringPeek t.q s.q.length = some b ∧
      ∀ i, i ≠ s.q.length → ringPeek t.q i = ringPeek s.q i) ∧
    (s.q.length = 50 → ringPeek t.q 49 = some b ∧
      ∀ i, i ≠ 49 → ringPeek t.q i = ringPeek s.q (i + 1))

/-- The frame of TRY_PARSE (42_commands.md §3, R135): it stores nothing; every byte it leaves stands in the old order, so
many offsets nearer the front as it removed, and what it removed is the front; the host's queue is untouched. -/
def Obligations.TryParseFrame : Prop :=
  ∀ (s t : State), exec .tryParse s = .next t →
    t.inputs = s.inputs ∧ t.q.length ≤ s.q.length ∧
    ∀ i, ringPeek t.q i = ringPeek s.q (i + (s.q.length - t.q.length))

/-- R154: the whole of TRY_PARSE on this hardware, its conditions tested in their order, from every state. -/
def Obligations.TryParseTestsInOrder : Prop :=
  ∀ s : State, ∃ gone q, s.q = gone ++ q ∧ headerFree gone = true ∧ (gone ≠ [] → 25 ≤ q.length) ∧
    (q.length ≤ 25 ∨ ringPeek q 0 = some 0x0F#8) ∧
    ((q.length < 25 ∨ ringPeek q 0 ≠ some 0x0F#8) →
      exec .tryParse s = .next { q := q, resp := some .notReady, inputs := s.inputs }) ∧
    (25 ≤ q.length → ringPeek q 0 = some 0x0F#8 → ∃ w, windowOf q = some w ∧
      (frameValid w = false →
        exec .tryParse s = .next { q := q.drop 1, resp := some .notReady, inputs := s.inputs }) ∧
      (frameValid w = true →
        exec .tryParse s = .next { q := q.drop 25, resp := some (.packet (packetOf w)), inputs := s.inputs }))

/-- TRY_PARSE decodes the frame behind header-free garbage of any length: its packet is the response, the garbage and the
frame's 25 bytes are removed, and all behind them is kept (42_commands.md §3, R133; 41_bit_unpacker.md R118). -/
def Obligations.TryParseDecodesTheFrame : Prop :=
  ∀ (s : State) (garbage rest : Ring) (w : Frame), s.q = garbage ++ (w.toList ++ rest) → headerFree garbage = true →
    frameValid w = true →
    exec .tryParse s = .next { q := rest, resp := some (.packet (packetOf w)), inputs := s.inputs }

/-- R96: a false header costs exactly its one byte and the call answers NotReady. -/
def Obligations.FalseHeaderCostsOneByte : Prop :=
  ∀ (s : State) (garbage rest : Ring), s.q = garbage ++ 0x0F#8 :: rest → headerFree garbage = true →
    24 ≤ rest.length → headsValidFrame (0x0F#8 :: rest) = false →
    exec .tryParse s = .next { q := rest, resp := some .notReady, inputs := s.inputs }

/-- R177: at the fixpoint TRY_PARSE answers NotReady and changes nothing, however often it is repeated, and every
command returns. -/
def Obligations.TryParseWaitsForData : Prop :=
  (∀ s : State, (s.q.length < 25 ∨ (s.q.length = 25 ∧ ringPeek s.q 0 ≠ some 0x0F#8)) →
    exec .tryParse s = .next { q := s.q, resp := some .notReady, inputs := s.inputs } ∧
    ∀ n, runScript (List.replicate (n + 1) .tryParse) s =
      (List.replicate (n + 1) .notReady, .next { q := s.q, resp := some .notReady, inputs := s.inputs })) ∧
  (∀ (i : Instr) (s : State), Completes (exec i s))

/-- R142: calls on fewer than 25 bytes, any number of them, answer NotReady and leave the ring as it is. -/
def Obligations.ShortRingIsLeftAlone : Prop :=
  ∀ (s : State) (n : Nat), s.q.length < 25 →
    ∃ t, runScript (List.replicate n .tryParse) s = (List.replicate n .notReady, .next t) ∧ t.q = s.q

/-- R134: under RESCAN a false header no longer ends the call, and the spec's example tells the two modes apart. -/
def Obligations.RescanGoesPastAFalseHeader : Prop :=
  (∀ (s : State) (q' : Ring), locatePass s.q = .ok (.falseHeader, q') →
    tryParseIn .rescan s = tryParseIn .rescan (s.setQ q') ∧
    tryParseIn .popOne s = .next { q := q', resp := some .notReady, inputs := s.inputs }) ∧
  (∀ (s : State) (q' : Ring), locatePass s.q = .ok (.notReady, q') →
    tryParseIn .rescan s = tryParseIn .popOne s) ∧
  (∀ (s : State) (q' : Ring), locatePass s.q = .ok (.accept, q') →
    tryParseIn .rescan s = tryParseIn .popOne s) ∧
  let s1 : Ring := [0x0F, 0xE0, 0x03, 0x1F, 0x58, 0xC0, 0x07, 0x16, 0xB0, 0x80, 0x05, 0x2C, 0x60, 0x01, 0x0B, 0xF8, 0xC0,
    0x07, 0x00, 0x00, 0x00, 0x00, 0x00, 0x03, 0x00]
  let packet : Packet :=
    { channels := #v[992, 992, 352, 992, 352, 352, 352, 352, 352, 352, 992, 992, 0, 0, 0, 0]
      d1 := true, d2 := true, frameLost := false, failsafe := false }
  let s : State := State.reset.setQ (0x0F#8 :: s1)
  blockView (tryParseIn .popOne s) = some (s1, some .notReady) ∧
  blockView (tryParseIn .popOne (s.setQ s1)) = some ([], some (.packet packet)) ∧
  blockView (tryParseIn .rescan s) = some ([], some (.packet packet))

/-- R78: only TRY_PARSE has a response, and it always has one. -/
def Obligations.OnlyTryParseResponds : Prop :=
  ∀ (i : Instr) (s : State), ∃ t, exec i s = .next t ∧ (respValid t = true ↔ i = .tryParse)

/-- The result of a command and its response depend on the ring alone, and so do all the responses of a list of commands:
no earlier packet and no host input is remembered (10_state.md §1, R20, R23, R29). -/
def Obligations.ResponsesDependOnTheRingAlone : Prop :=
  (∀ (i : Instr) (s s' : State), s.q = s'.q → blockView (exec i s) = blockView (exec i s')) ∧
  (∀ (is : List Instr) (s s' : State), s.q = s'.q → (runScript is s).1 = (runScript is s').1)

/-- R138: PUSH_BYTES leaves the last 50 bytes of what was held and what was pushed, and brings no response. -/
def Obligations.PushBytesKeepsTheLastFifty : Prop :=
  ∀ (s : State) (bs : List Byte), s.Inv →
    ∃ t, runScript (expandPushBytes bs) s = ([], .next t) ∧ t.q = lastFifty (s.q ++ bs) ∧
      t.q.length = min (s.q.length + bs.length) 50 ∧ (50 ≤ bs.length → t.q = lastFifty bs) ∧
      (bs = [] → t = s) ∧ t.inputs = s.inputs

/-- R143: a valid frame pushed into an empty ring is decoded by one TRY_PARSE, which leaves the ring empty. -/
def Obligations.FrameRoundTrip : Prop :=
  ∀ (s : State) (w : Frame), s.q = [] → frameValid w = true →
    runScript (expandPushBytes w.toList ++ [.tryParse]) s =
      ([.packet (packetOf w)], .next { q := [], resp := some (.packet (packetOf w)), inputs := s.inputs })

/-- R144: header-free bytes in front of a frame do not change its packet, whatever their number, with TRY_PARSE calls among
the pushes or not, when at most 25 bytes are pushed behind its footer. -/
def Obligations.LeadingBytesDoNotChangeThePacket : Prop :=
  ∀ (s : State) (is : List Instr) (garbage behind : List Byte) (w : Frame),
    s.q = [] → frameValid w = true → headerFree garbage = true → .new ∉ is →
    pushedBytes is = garbage ++ w.toList.take 24 → behind.length ≤ 25 →
    ∃ (rs : List Response) (t : State), (∀ r ∈ rs, r = .notReady) ∧
      runScript (is ++ .pushByte w[24] :: expandPushBytes behind ++ [.tryParse]) s =
        (rs ++ [.packet (packetOf w)], .next t) ∧
      t.q = behind

/-- The first window that is a valid frame is decoded, after at most one NotReady call for each header byte in front of it
(40_frame_locator.md §5, 42_commands.md §6; R104 and R145 without their premise that it is the real frame). -/
def Obligations.FirstValidWindowIsDecoded : Prop :=
  ∀ (s : State) (front rest : Ring) (w : Frame), s.q = front ++ (w.toList ++ rest) → frameValid w = true →
    (∀ (i : Nat) (h : i < front.length), front[i] = 0x0F#8 → headsValidFrame (s.q.drop i) = false) →
    ∃ (n : Nat) (t : State), n ≤ front.count 0x0F#8 ∧
      runScript (List.replicate (n + 1) .tryParse) s =
        (List.replicate n .notReady ++ [.packet (packetOf w)], .next t) ∧
      t.q = rest

/-- R145: noise of at most 25 bytes in front of a frame, in which no header byte heads a valid window, costs at most one
NotReady call for each of its header bytes; where one does, the first such window is decoded in place of the frame. -/
def Obligations.NoiseDelaysTheFrame : Prop :=
  ∀ (s : State) (noise : List Byte) (w : Frame), s.q = [] → frameValid w = true → noise.length ≤ 25 →
    ((∀ (i : Nat) (h : i < noise.length), noise[i] = 0x0F#8 →
        headsValidFrame ((noise ++ w.toList).drop i) = false) →
      ∃ (n : Nat) (t : State), n ≤ noise.count 0x0F#8 ∧
        runScript (expandPushBytes (noise ++ w.toList) ++ List.replicate (n + 1) .tryParse) s =
          (List.replicate n .notReady ++ [.packet (packetOf w)], .next t) ∧
        t.q = []) ∧
    (∀ (i : Nat) (w' : Frame), i < noise.length → windowOf ((noise ++ w.toList).drop i) = some w' →
      frameValid w' = true →
      (∀ (j : Nat) (h : j < noise.length), j < i → noise[j] = 0x0F#8 →
        headsValidFrame ((noise ++ w.toList).drop j) = false) →
      ∃ (n : Nat) (t : State), n ≤ noise.count 0x0F#8 ∧
        runScript (expandPushBytes (noise ++ w.toList) ++ List.replicate (n + 1) .tryParse) s =
          (List.replicate n .notReady ++ [.packet (packetOf w')], .next t) ∧
        t.q = (noise ++ w.toList).drop (i + 25))

/-- Frames that stand one behind the other are returned one a call, in order (42_commands.md §3, R136; R135). -/
def Obligations.FramesComeInOrder : Prop :=
  ∀ (s : State) (ws : List Frame) (rest : Ring), s.q = (ws.map Vector.toList).flatten ++ rest →
    (∀ w ∈ ws, frameValid w = true) →
    ∃ t, runScript (List.replicate ws.length .tryParse) s = (ws.map fun w => .packet (packetOf w), .next t) ∧
      t.q = rest

/-- 70_reset_and_hazards.md §2 (R175): every TRY_PARSE leaves room for a byte, so a push that follows one evicts nothing;
a second push can. -/
def Obligations.TryParseLeavesRoomForAByte : Prop :=
  (∀ s : State, s.Inv → ∃ t, exec .tryParse s = .next t ∧ t.q.length ≤ 49 ∧
    ∀ b, ∃ u, exec (.pushByte b) t = .next u ∧ u.q = t.q ++ [b]) ∧
  (∃ (s t u v : State) (a b : Byte), s.Inv ∧ exec .tryParse s = .next t ∧ exec (.pushByte a) t = .next u ∧
    exec (.pushByte b) u = .next v ∧ v.q ≠ t.q ++ [a, b])

/-- The counterexample of 90_conflicts.md C2 (95_test_vectors.md LOC-12): a header byte in the noise heads a window that
passes the validity test, and the false packet is returned. -/
def Obligations.FalseFrameInNoise : Prop :=
  blockView (exec .tryParse (State.reset.setQ
    [0x0F, 0x01, 0x02, 0x03, 0x04, 0x05,
     0x0F, 0xE0, 0x03, 0x1F, 0x58, 0xC0, 0x07, 0x16, 0xB0, 0x80, 0x05, 0x2C, 0x60, 0x01, 0x0B, 0xF8, 0xC0, 0x07,
     0x00, 0x00, 0x00, 0x00, 0x00, 0x03, 0x00])) =
  some ([0x00, 0x00, 0x00, 0x00, 0x03, 0x00], some (.packet
    { channels := #v[513, 96, 1040, 1922, 1536, 1543, 1543, 1538, 1543, 1538, 1538, 1538, 1538, 1538, 1538, 1543]
      d1 := true, d2 := true, frameLost := true, failsafe := false }))

/-! ### Reset, the step, the invariant -/

/-- R170: after reset, after NEW and after the reset input the ring is empty and `occupancy` is 0. -/
def Obligations.ResetLeavesAnEmptyRing : Prop :=
  (State.reset.q = [] ∧ occupancy State.reset = 0#6) ∧
  (∀ s : State, ∃ t, exec .new s = .next t ∧ t.q = [] ∧ occupancy t = 0#6) ∧
  (∀ (s : State) (p : PortSample) (ps : List PortSample), s.inputs = p :: ps → p.rst = true →
    ∃ t, step s = .next t ∧ t.q = [] ∧ occupancy t = 0#6)

/-- 70_reset_and_hazards.md §1 (R171): while `rst` = 1 no command is accepted, whatever is offered beside it, and no
response is presented; a command offered in the next step, with `rst` = 0, is accepted. The two values of `cmdReady` are
the model's choice (log entry 5, DESIGN CHOICE), and so is that the dropped offer is not kept for later (log entry 2). -/
def Obligations.ResetInputDropsTheOffer : Prop :=
  ∀ (s : State) (p : PortSample) (ps : List PortSample), s.inputs = p :: ps → p.rst = true →
    cmdReady p = false ∧
    step s = .next { q := [], resp := none, inputs := ps } ∧
    (∀ (w : CmdWord) (i : Instr) (qs : List PortSample), ps = offer w :: qs → decode w = .ok i →
      cmdReady (offer w) = true ∧
      Host.Core.run core 2 s = exec i { q := [], resp := none, inputs := qs })

/-- A step with a command offered is the command's meaning, once the sample is taken off the host's queue; so is the step
after `withFetchWord` (30_encoding.md §5; the queue is the model's own, log entry 2). -/
def Obligations.StepRunsTheDecodedCommand : Prop :=
  (∀ (s : State) (w : CmdWord) (i : Instr) (ps : List PortSample), s.inputs = offer w :: ps → decode w = .ok i →
    step s = exec i (s.setInputs ps)) ∧
  (∀ (s : State) (nbits w : Nat) (i : Instr), decodeTableWord nbits w = some i →
    step (s.withFetchWord nbits w) = exec i s)

/-- R139: a reserved word, wherever it is offered, is refused by name. -/
def Obligations.ReservedWordIsRefused : Prop :=
  ∀ (s : State) (w : CmdWord) (ps : List PortSample), s.inputs = offer w :: ps →
    (opField w = 0b11#2 → step s = .refused (.reservedWord (.reservedOp w))) ∧
    ((opField w = 0b01#2 ∨ opField w = 0b10#2) → dataField w ≠ 0x00#8 →
      step s = .refused (.reservedWord (.nonzeroData w)))

/-- 60_exceptions.md §6 (R165): while nothing is offered the ring is held. That the response is presented no longer is the
model's reading of 30_encoding.md R83 (log entry 4). -/
def Obligations.IdleHoldsTheRing : Prop :=
  (∀ s : State, s.inputs = [] → step s = .next { q := s.q, resp := none, inputs := [] }) ∧
  (∀ (s : State) (p : PortSample) (ps : List PortSample), s.inputs = p :: ps → p.rst = false → p.cmdValid = false →
    step s = .next { q := s.q, resp := none, inputs := ps })

/-- R150: every command completes, from every state, and leaves the block able to take the next. -/
def Obligations.EveryCommandCompletes : Prop :=
  ∀ (i : Instr) (s : State), Completes (exec i s) ∧ (∀ t, exec i s = .next t → ∀ i', Completes (exec i' t))

/-- 60_exceptions.md §4 (R158): a step never faults, and is refused for a reserved word and for nothing else. That the
word stops a step only when it is offered with `rst` = 0 and `cmd_valid` = 1 is the model's reading (log entry 13, DEDUCED)
of 30_encoding.md §5 (R83) and 70_reset_and_hazards.md §1 (R171). -/
def Obligations.OnlyReservedWordsStopAStep : Prop :=
  ∀ s : State, Completes (step s) ∨
    ∃ (p : PortSample) (ps : List PortSample) (r : Reject), s.inputs = p :: ps ∧ p.rst = false ∧ p.cmdValid = true ∧
      wordLegal p.cmd = false ∧ step s = .refused (.reservedWord r)

/-- R27: every step keeps `|q| <= 50`, an offset is valid exactly below the occupancy, and no step reads or pops at an
invalid one (the model faults of R49). -/
def Obligations.StepKeepsTheRingInvariant : Prop :=
  (∀ s t : State, s.Inv → step s = .next t → t.Inv) ∧
  (∀ (i : Instr) (s t : State), s.Inv → exec i s = .next t → t.Inv) ∧
  (∀ (q : Ring) (i : Nat), (ringPeek q i).isSome = true ↔ i < q.length) ∧
  (∀ (s : State) (f : Fault), step s ≠ .fault f)

/-- The state after reset meets the ring invariant (10_state.md §6); any command may come first, and a TRY_PARSE there
answers NotReady and leaves the ring empty (70_reset_and_hazards.md §1, R173). -/
def Obligations.ResetMeetsTheRingInvariant : Prop :=
  State.reset.Inv ∧ (∀ i : Instr, Completes (exec i State.reset)) ∧
  ∃ t, exec .tryParse State.reset = .next t ∧ t.resp = some .notReady ∧ t.q = []

/-- R24: `occupancy` is the number of bytes held, 0 to 50, and 0 after reset. -/
def Obligations.OccupancyCountsTheRing : Prop :=
  (∀ s : State, s.Inv → (occupancy s).toNat = ringLen s.q ∧ (occupancy s).toNat ≤ 50) ∧
  occupancy State.reset = 0#6

/-! ### The host's side -/

/-- Commands offered one a step take effect one at a time, in order, each on what the one before left: the steps give what
the list of commands gives (20_memory.md §6, R57). -/
def Obligations.OfferedCommandsRunInOrder : Prop :=
  ∀ (is : List Instr) (s : State),
    Host.Core.run core is.length (s.setInputs (offerAll is ++ s.inputs)) = (runScript is s).2

/-- 42_commands.md §6 (R146): no list of commands, of any length, ends in a fault or a refusal or leaves more than 50
bytes. -/
def Obligations.NoScriptOverflows : Prop :=
  ∀ (is : List Instr) (s : State), s.Inv → ∃ t, (runScript is s).2 = .next t ∧ t.Inv ∧ t.inputs = s.inputs

/-- 42_commands.md §4 (R141): DRAIN_AND_PARSE pushes what the source has, in order, then parses once; a source that is never
seen empty leaves the helper unfinished (70_reset_and_hazards.md R182; log entry 8). -/
def Obligations.DrainPushesThenParses : Prop :=
  (∀ (bs : List Byte) (later : List (Option Byte)),
    expandDrain (bs.map some ++ none :: later) = some (expandPushBytes bs ++ [.tryParse])) ∧
  (∀ bs : List Byte, expandDrain (bs.map some) = none)

/-- 30_encoding.md §3 (R76): a well-formed line is read back from its spelling, and only well-formed lines are read (the
spelling's details are log entry 9). -/
def Obligations.AssemblerReadsItsSpelling : Prop :=
  (∀ l : AsmLine, l.wellFormed = true → parseLine (printLine l) = some l) ∧
  (∀ (cs : List Char) (l : AsmLine), parseLine cs = some l → l.wellFormed = true) ∧
  (∀ (bs : List Byte) (reads : List (Option Byte)),
    expandLine (.pushBytes (bs.map BitVec.toNat)) reads = some (expandPushBytes bs))
end

