-- ==== Sys2Proof/Laws/Decode.lean ====
section
/-! SUPPORT. The fields of an encoded command, and the opcode table's rows. -/

namespace Sys2Proof

theorem opField_append (op : BitVec 2) (d : Byte) : opField (op ++ d) = op := by
  apply BitVec.eq_of_getLsbD_eq
  intro i hi
  have h := BitVec.getLsbD_append (x := op) (y := d) (i := 8 + i)
  rw [if_neg (by omega), Nat.add_sub_cancel_left] at h
  rw [opField, BitVec.getLsbD_extractLsb', decide_eq_true hi, Bool.true_and]
  exact h

theorem dataField_append (op : BitVec 2) (d : Byte) : dataField (op ++ d) = d := by
  apply BitVec.eq_of_getLsbD_eq
  intro i hi
  have h := BitVec.getLsbD_append (x := op) (y := d) (i := 0 + i)
  rw [if_pos (by omega), Nat.zero_add] at h
  rw [dataField, BitVec.getLsbD_extractLsb', decide_eq_true hi, Bool.true_and, Nat.zero_add]
  exact h

/-- A word is its two fields, op above data. -/
theorem opField_append_dataField (w : CmdWord) : opField w ++ dataField w = w := by
  apply BitVec.eq_of_getLsbD_eq
  intro i hi
  simp only [opField, dataField, BitVec.getLsbD_append, BitVec.getLsbD_extractLsb']
  split
  · next h => simp [h]
  · next h => rw [show 8 + (i - 8) = i by omega]; simp [show i - 8 < 2 by omega]

/-- The op of a reserved or legal word is one of four. -/
theorem opField_cases (w : CmdWord) :
    opField w = 0b00#2 ∨ opField w = 0b01#2 ∨ opField w = 0b10#2 ∨ opField w = 0b11#2 := by
  generalize opField w = op
  revert op
  decide

/-- The rows of the opcode table, pairwise, share no word. -/
theorem opTable_disjoint : opTable.Pairwise fun r r' => r.disjoint r' = true := by decide

theorem OpRow.not_both {r r' : OpRow} (h : r.disjoint r' = true) (w : CmdWord) :
    ¬ (r.holds w = true ∧ r'.holds w = true) := by
  rintro ⟨h1, h2⟩
  simp only [OpRow.holds, beq_iff_eq] at h1 h2
  simp only [OpRow.disjoint, bne_iff_ne, ne_eq] at h
  apply h
  rw [← h1, ← h2]
  apply BitVec.eq_of_getLsbD_eq
  intro i _
  simp only [BitVec.getLsbD_and, BitVec.getLsbD_xor, BitVec.getLsbD_zero]
  cases w.getLsbD i <;> cases r.mask.getLsbD i <;> cases r'.mask.getLsbD i <;> rfl

end Sys2Proof
end

