-- ==== Sys2Proof/Laws/Ring.lean ====
section
/-! SUPPORT. The ring primitives, and that each keeps the ring invariant; the window at the front. -/

namespace Sys2Proof.Machine

@[simp] theorem frameSize_eq : Config.frameSize = 25 := rfl
@[simp] theorem ringCapacity_eq : Config.ringCapacity = 50 := rfl
@[simp] theorem header_eq : Config.header = 0x0F#8 := rfl
@[simp] theorem footer_eq : Config.footer = 0x00#8 := rfl
@[simp] theorem flagReservedMask_eq : Config.flagReservedMask = 0xF0#8 := rfl

@[simp] theorem Ring.wf_iff (q : Ring) : Ring.wf q = true ↔ q.length ≤ 50 := by simp [Ring.wf]

/-! ### The primitives -/

theorem ringPush_of_full {q : Ring} (h : q.length = 50) (b : Byte) : ringPush q b = q.drop 1 ++ [b] := by
  simp [ringPush, ringLen, h]

theorem ringPush_of_not_full {q : Ring} (h : q.length ≠ 50) (b : Byte) : ringPush q b = q ++ [b] := by
  simp [ringPush, ringLen, h]

/-- On a well-formed ring a push keeps the last 50 bytes of the sequence with the byte added. -/
theorem ringPush_eq_drop {q : Ring} (h : q.length ≤ 50) (b : Byte) :
    ringPush q b = (q ++ [b]).drop ((q ++ [b]).length - 50) := by
  by_cases hf : q.length = 50
  · rw [ringPush_of_full hf, List.drop_append_of_le_length (by simp [hf])]
    simp [hf]
  · rw [ringPush_of_not_full hf, show (q ++ [b]).length - 50 = 0 by simp; omega]
    rfl

theorem ringPush_length_le {q : Ring} (h : q.length ≤ 50) (b : Byte) : (ringPush q b).length ≤ 50 := by
  rw [ringPush_eq_drop h, List.length_drop]; omega

@[simp] theorem ringPop_nil : ringPop [] = (none, []) := rfl
@[simp] theorem ringPop_cons (b : Byte) (q : Ring) : ringPop (b :: q) = (some b, q) := rfl

theorem ringPop_snd (q : Ring) : (ringPop q).2 = q.drop 1 := by cases q <;> rfl
theorem ringPop_fst (q : Ring) : (ringPop q).1 = q.head? := by cases q <;> rfl

theorem ringPeek_zero (q : Ring) : ringPeek q 0 = q.head? := by cases q <;> rfl

@[simp] theorem ringDrop_eq (n : Nat) (q : Ring) : ringDrop n q = q.drop n := rfl
@[simp] theorem ringLen_eq (q : Ring) : ringLen q = q.length := rfl

/-! ### Every primitive keeps the ring invariant -/

theorem ringPush_wf {q : Ring} (h : Ring.wf q = true) (b : Byte) : Ring.wf (ringPush q b) = true := by
  rw [Ring.wf_iff] at *; exact ringPush_length_le h b

theorem ringPop_wf {q : Ring} (h : Ring.wf q = true) : Ring.wf (ringPop q).2 = true := by
  rw [Ring.wf_iff] at *; rw [ringPop_snd, List.length_drop]; omega

theorem ringDrop_wf {q : Ring} (h : Ring.wf q = true) (n : Nat) : Ring.wf (ringDrop n q) = true := by
  rw [Ring.wf_iff] at *; rw [ringDrop_eq, List.length_drop]; omega

theorem ringPushAll_wf {q : Ring} (h : Ring.wf q = true) (bs : List Byte) : Ring.wf (ringPushAll q bs) = true := by
  induction bs generalizing q with
  | nil => exact h
  | cons b bs ih => exact ih (ringPush_wf h b)

/-- What is left behind some of the front is well formed too. -/
theorem Ring.wf_of_suffix {q q' : Ring} (h : Ring.wf q = true) (hs : q' <:+ q) : Ring.wf q' = true := by
  rw [Ring.wf_iff] at *; exact hs.length_le.trans h

/-! ### The window -/

theorem windowOf_none {q : Ring} (h : q.length < 25) : windowOf q = none := by
  simp [windowOf, show ¬ 25 ≤ q.length by omega]

theorem windowOf_some {q : Ring} (h : 25 ≤ q.length) : windowOf q = some (frontFrame q h) := by
  rw [windowOf, dif_pos h]

theorem frontFrame_getElem (q : Ring) (h : 25 ≤ q.length) (i : Nat) (hi : i < 25) :
    (frontFrame q h)[i] = q[i] := by
  rw [frontFrame, Vector.getElem_ofFn]

theorem frontFrame_toList (q : Ring) (h : 25 ≤ q.length) : (frontFrame q h).toList = q.take 25 := by
  apply List.ext_getElem
  · rw [Vector.length_toList, List.length_take]; omega
  · intro i h1 h2
    rw [Vector.getElem_toList, frontFrame_getElem, List.getElem_take]

theorem frontFrame_append (w : Frame) (rest : Ring) (h : 25 ≤ (w.toList ++ rest).length) :
    frontFrame (w.toList ++ rest) h = w := by
  apply Vector.ext
  intro i hi
  rw [frontFrame_getElem, List.getElem_append_left (by rw [Vector.length_toList]; exact hi), Vector.getElem_toList]

theorem windowOf_append (w : Frame) (rest : Ring) : windowOf (w.toList ++ rest) = some w := by
  have h : 25 ≤ (w.toList ++ rest).length := by rw [List.length_append, Vector.length_toList]; omega
  rw [windowOf_some h, frontFrame_append]

/-- A window is held exactly when its bytes stand at the front. -/
theorem windowOf_eq_some_iff {q : Ring} {w : Frame} : windowOf q = some w ↔ ∃ rest, q = w.toList ++ rest := by
  constructor
  · intro h
    by_cases hl : 25 ≤ q.length
    · rw [windowOf_some hl, Option.some_inj] at h
      refine ⟨q.drop 25, ?_⟩
      rw [← h, frontFrame_toList, List.take_append_drop]
    · rw [windowOf_none (by omega)] at h
      cases h
  · rintro ⟨rest, rfl⟩
    exact windowOf_append w rest

theorem windowOf_some_of_length {q : Ring} (h : 25 ≤ q.length) : ∃ w, windowOf q = some w :=
  ⟨_, windowOf_some h⟩

theorem windowOf_peek {q : Ring} {w : Frame} (h : windowOf q = some w) {i : Nat} (hi : i < 25) :
    ringPeek q i = some w[i] := by
  obtain ⟨rest, rfl⟩ := windowOf_eq_some_iff.1 h
  rw [ringPeek, List.getElem?_append_left (by rw [Vector.length_toList]; exact hi),
    List.getElem?_eq_getElem (by rw [Vector.length_toList]; exact hi), Vector.getElem_toList]

theorem frame_toList_length (w : Frame) : w.toList.length = 25 := by simp

/-- The frame's header is the front byte. -/
theorem frame_head? (w : Frame) (rest : Ring) : (w.toList ++ rest).head? = some w[0] := by
  rw [← ringPeek_zero]; exact windowOf_peek (windowOf_append w rest) (by decide)

theorem frameValid_iff (w : Frame) :
    frameValid w = true ↔ w[0] = 0x0F#8 ∧ w[24] = 0x00#8 ∧ w[23] &&& 0xF0#8 = 0#8 := by
  simp [frameValid, reservedNibbleZero, and_assoc]

theorem headsValidFrame_append (w : Frame) (rest : Ring) : headsValidFrame (w.toList ++ rest) = frameValid w := by
  simp [headsValidFrame, windowOf_append]

/-- A ring that heads a valid frame is that frame and what follows it. -/
theorem headsValidFrame_iff {q : Ring} :
    headsValidFrame q = true ↔ ∃ w rest, q = w.toList ++ rest ∧ frameValid w = true := by
  constructor
  · intro h
    unfold headsValidFrame at h
    split at h
    · next w hw =>
      obtain ⟨rest, rfl⟩ := windowOf_eq_some_iff.1 hw
      exact ⟨w, rest, rfl, h⟩
    · cases h
  · rintro ⟨w, rest, rfl, h⟩
    rw [headsValidFrame_append, h]

end Sys2Proof.Machine
end

