-- ==== Sys2Proof/Laws/Locator.lean ====
section
/-! SUPPORT. What step 1 does, what one pass does, and what Locate does in both modes: one lemma each, for callers to
cite in place of unfolding. -/

namespace Sys2Proof.Machine

/-! ### Step 1 -/

/-- Step 1 is the loop of R92, unrolled once. -/
theorem resync_unfold (q : Ring) :
    resync q = if ringLen q > 25 ∧ ringPeek q 0 ≠ some 0x0F#8 then resync (ringPop q).2 else q := by
  cases q with
  | nil => rfl
  | cons b rest => rw [resync]; rfl

/-- All that step 1 does: it removes bytes that are no header, down to a header or to 25 bytes. -/
theorem resync_spec (q : Ring) :
    ∃ pre, q = pre ++ resync q ∧ (∀ b ∈ pre, b ≠ 0x0F#8) ∧
      ((resync q).length ≤ 25 ∨ (resync q).head? = some 0x0F#8) ∧
      (pre ≠ [] → 25 ≤ (resync q).length) := by
  induction q with
  | nil => exact ⟨[], by simp [resync]⟩
  | cons b rest ih =>
    rw [resync]
    split
    · next h =>
      obtain ⟨pre, h1, h2, h3, h4⟩ := ih
      refine ⟨b :: pre, by rw [List.cons_append, ← h1], ?_, h3, fun _ => ?_⟩
      · intro x hx
        rcases List.mem_cons.1 hx with rfl | hx
        · simpa [ringPeek] using h.2
        · exact h2 x hx
      · by_cases hp : pre = []
        · have : rest.length = (resync rest).length := by rw [hp] at h1; exact congrArg _ h1
          have := h.1
          simp only [ringLen_eq, frameSize_eq, List.length_cons] at this
          omega
        · exact h4 hp
    · next h =>
      refine ⟨[], by simp, by simp, ?_, by simp⟩
      simp only [ringLen_eq, frameSize_eq, header_eq, ringPeek_zero, not_and_or, not_not] at h
      rcases h with h | h
      · left; omega
      · right; exact h

theorem resync_suffix (q : Ring) : resync q <:+ q := by
  obtain ⟨pre, h, -⟩ := resync_spec q
  exact ⟨pre, h.symm⟩

theorem resync_of_short {q : Ring} (h : q.length ≤ 25) : resync q = q := by
  rw [resync_unfold, if_neg]; simp; omega

theorem resync_of_header {q : Ring} (h : q.head? = some 0x0F#8) : resync q = q := by
  rw [resync_unfold, if_neg]; simp [ringPeek_zero, h]

/-- Bytes in front of a header that a whole window's length still follows are all removed. -/
theorem resync_skip {pre q : Ring} (hp : ∀ b ∈ pre, b ≠ 0x0F#8) (hq : 25 ≤ q.length) :
    resync (pre ++ q) = resync q := by
  induction pre with
  | nil => rfl
  | cons b pre ih =>
    rw [resync_unfold, if_pos]
    · exact ih fun x hx => hp x (List.mem_cons_of_mem _ hx)
    · constructor
      · simp; omega
      · simpa [ringPeek] using hp b List.mem_cons_self

/-! ### One pass -/

/-- Steps 2 to 4, without their model faults: they are never reached. -/
theorem checkFront_eq (q : Ring) :
    checkFront q =
      if q.length < 25 ∨ q.head? ≠ some 0x0F#8 then .ok (.notReady, q)
      else if headsValidFrame q then .ok (.accept, q)
      else .ok (.falseHeader, q.drop 1) := by
  unfold checkFront
  simp only [ringLen_eq, ringPeek_zero, frameSize_eq, header_eq, footer_eq]
  split
  · rfl
  · next h =>
    simp only [not_or, not_not] at h
    obtain ⟨w, hw⟩ := windowOf_some_of_length (q := q) (by omega)
    have h0 : ringPeek q 0 = some w[0] := windowOf_peek hw (by decide)
    rw [ringPeek_zero, h.2] at h0
    have h0 : w[0] = 0x0F#8 := (Option.some.inj h0).symm
    rw [windowOf_peek hw (show 24 < 25 by decide), windowOf_peek hw (show 23 < 25 by decide)]
    have hv : headsValidFrame q = frameValid w := by simp [headsValidFrame, hw]
    rw [hv]
    have hq : q ≠ [] := by rintro rfl; simp at h
    obtain ⟨b, rest, rfl⟩ := List.exists_cons_of_ne_nil hq
    by_cases h24 : w[24] = 0x00#8 <;> cases h23 : reservedNibbleZero w[23] <;>
      simp [frameValid, h0, h24, h23]

/-- All that one pass does (R97). -/
theorem locatePass_eq (q : Ring) :
    locatePass q =
      if (resync q).length < 25 ∨ (resync q).head? ≠ some 0x0F#8 then .ok (.notReady, resync q)
      else if headsValidFrame (resync q) then .ok (.accept, resync q)
      else .ok (.falseHeader, (resync q).drop 1) := checkFront_eq _

theorem locatePass_cases (q : Ring) :
    (locatePass q = .ok (.notReady, resync q) ∧
      ((resync q).length < 25 ∨ (resync q).head? ≠ some 0x0F#8)) ∨
    (locatePass q = .ok (.accept, resync q) ∧ headsValidFrame (resync q) = true ∧
      25 ≤ (resync q).length ∧ (resync q).head? = some 0x0F#8) ∨
    (locatePass q = .ok (.falseHeader, (resync q).drop 1) ∧ headsValidFrame (resync q) = false ∧
      25 ≤ (resync q).length ∧ (resync q).head? = some 0x0F#8) := by
  rw [locatePass_eq]
  split
  · next h => exact .inl ⟨rfl, h⟩
  · next h =>
    simp only [not_or, not_not, not_lt] at h
    split
    · next hv => exact .inr (.inl ⟨rfl, hv, h.1, h.2⟩)
    · next hv => exact .inr (.inr ⟨rfl, by simpa using hv, h.1, h.2⟩)

/-! ### Locate -/

@[simp] theorem locate_popOne (q : Ring) : locate .popOne q = locatePopOne q := rfl
@[simp] theorem locate_rescan (q : Ring) : locate .rescan q = locateRescan q := rfl

/-- All that a POP_ONE call does (R97). -/
theorem locatePopOne_eq (q : Ring) :
    locatePopOne q =
      if (resync q).length < 25 ∨ (resync q).head? ≠ some 0x0F#8 then .ok (.notReady, resync q)
      else if headsValidFrame (resync q) then .ok (.accept, resync q)
      else .ok (.notReady, (resync q).drop 1) := by
  unfold locatePopOne
  rw [locatePass_eq]
  split_ifs <;> rfl

/-- More passes than bytes change nothing. -/
theorem rescanLoop_stable (n : Nat) (q : Ring) (h : q.length ≤ n) : rescanLoop (n + 1) q = rescanLoop n q := by
  induction n generalizing q with
  | zero =>
    obtain rfl : q = [] := List.eq_nil_of_length_eq_zero (by omega)
    rfl
  | succ n ih =>
    rw [rescanLoop.eq_2 q (n + 1), rescanLoop.eq_2 q n]
    have hl := (resync_suffix q).length_le
    rcases locatePass_cases q with ⟨e, -⟩ | ⟨e, -⟩ | ⟨e, -, h25, -⟩
    · simp only [e]
    · simp only [e]
    · simp only [e]
      exact ih _ (by rw [List.length_drop]; omega)

theorem rescanLoop_of_le {n : Nat} {q : Ring} (h : q.length ≤ n) : rescanLoop n q = locateRescan q := by
  induction n with
  | zero => rw [locateRescan, ringLen_eq, Nat.le_zero.1 h]
  | succ n ih =>
    rcases Nat.lt_or_ge n q.length with h' | h'
    · rw [locateRescan, ringLen_eq, Nat.le_antisymm h h']
    · rw [rescanLoop_stable n q h', ih h']

/-- `Locate_RESCAN` is the loop of R98, unrolled once. -/
theorem locateRescan_unfold (q : Ring) :
    locateRescan q =
      match locatePass q with
      | .error f => .error f
      | .ok (.accept, q') => .ok (.accept, q')
      | .ok (.notReady, q') => .ok (.notReady, q')
      | .ok (.falseHeader, q') => locateRescan q' := by
  rw [← rescanLoop_of_le (Nat.le_succ q.length), rescanLoop]
  have hl := (resync_suffix q).length_le
  rcases locatePass_cases q with ⟨e, -⟩ | ⟨e, -⟩ | ⟨e, -, h25, -⟩ <;> simp only [e]
  exact rescanLoop_of_le (by rw [List.length_drop]; omega)

/-- A result that is no accepted frame leaves a suffix of the ring, an accepted one a valid frame at its front. -/
def LocateOk (q : Ring) (r : Except Fault (Verdict × Ring)) : Prop :=
  ∃ v q', r = .ok (v, q') ∧ q' <:+ q ∧ (v = .accept → headsValidFrame q' = true)

theorem locatePopOne_ok (q : Ring) : LocateOk q (locatePopOne q) := by
  rw [locatePopOne_eq]
  split_ifs with h hv
  · exact ⟨_, _, rfl, resync_suffix q, by simp⟩
  · exact ⟨_, _, rfl, resync_suffix q, fun _ => hv⟩
  · exact ⟨_, _, rfl, (List.drop_suffix _ _).trans (resync_suffix q), by simp⟩

theorem rescanLoop_ok (n : Nat) (q : Ring) : LocateOk q (rescanLoop n q) := by
  induction n generalizing q with
  | zero => exact ⟨_, _, rfl, List.suffix_rfl, by simp⟩
  | succ n ih =>
    rw [rescanLoop]
    rcases locatePass_cases q with ⟨e, -⟩ | ⟨e, hv, -⟩ | ⟨e, -⟩ <;> simp only [e]
    · exact ⟨_, _, rfl, resync_suffix q, by simp⟩
    · exact ⟨_, _, rfl, resync_suffix q, fun _ => hv⟩
    · obtain ⟨v, q', h1, h2, h3⟩ := ih ((resync q).drop 1)
      exact ⟨v, q', h1, h2.trans ((List.drop_suffix _ _).trans (resync_suffix q)), h3⟩

/-- All that Locate can answer, in either mode: never a fault, always a suffix of the ring. -/
theorem locate_ok (m : ResyncMode) (q : Ring) : LocateOk q (locate m q) := by
  cases m
  · exact locatePopOne_ok q
  · exact rescanLoop_ok _ q

theorem resync_wf {q : Ring} (h : Ring.wf q = true) : Ring.wf (resync q) = true := Ring.wf_of_suffix h (resync_suffix q)

theorem locate_wf {m : ResyncMode} {q q' : Ring} {v : Verdict} (h : Ring.wf q = true) (hl : locate m q = .ok (v, q')) :
    Ring.wf q' = true := by
  obtain ⟨v₁, q₁, h1, h2, -⟩ := locate_ok m q
  rw [hl] at h1
  cases h1
  exact Ring.wf_of_suffix h h2

end Sys2Proof.Machine
end

