-- ==== Sys2Proof/Laws/State.lean ====
section
/-! SUPPORT. One lemma per field per update of State, and the meanings of NEW and PUSH_BYTE as equations. -/

namespace Sys2Proof.Machine

@[simp] theorem setQ_q (s : State) (q : Ring) : (s.setQ q).q = q := rfl
@[simp] theorem setQ_resp (s : State) (q : Ring) : (s.setQ q).resp = s.resp := rfl
@[simp] theorem setQ_inputs (s : State) (q : Ring) : (s.setQ q).inputs = s.inputs := rfl
@[simp] theorem setResp_q (s : State) (r : Option Response) : (s.setResp r).q = s.q := rfl
@[simp] theorem setResp_resp (s : State) (r : Option Response) : (s.setResp r).resp = r := rfl
@[simp] theorem setResp_inputs (s : State) (r : Option Response) : (s.setResp r).inputs = s.inputs := rfl
@[simp] theorem setInputs_q (s : State) (ps : List PortSample) : (s.setInputs ps).q = s.q := rfl
@[simp] theorem setInputs_resp (s : State) (ps : List PortSample) : (s.setInputs ps).resp = s.resp := rfl
@[simp] theorem setInputs_inputs (s : State) (ps : List PortSample) : (s.setInputs ps).inputs = ps := rfl
@[simp] theorem clearBlock_q (s : State) : (clearBlock s).q = [] := rfl
@[simp] theorem clearBlock_resp (s : State) : (clearBlock s).resp = none := rfl
@[simp] theorem clearBlock_inputs (s : State) : (clearBlock s).inputs = s.inputs := rfl
@[simp] theorem idle_q (s : State) : (idle s).q = s.q := rfl
@[simp] theorem idle_resp (s : State) : (idle s).resp = none := rfl
@[simp] theorem idle_inputs (s : State) : (idle s).inputs = s.inputs := rfl

/-- Two states with the same fields are the same. -/
theorem State.eq_of_fields {s t : State} (hq : s.q = t.q) (hr : s.resp = t.resp) (hi : s.inputs = t.inputs) : s = t := by
  cases s; cases t; simp_all

theorem takeSample_nil {s : State} (h : s.inputs = []) : takeSample s = none := by simp [takeSample, h]

theorem takeSample_cons {s : State} {p : PortSample} {ps : List PortSample} (h : s.inputs = p :: ps) :
    takeSample s = some (p, s.setInputs ps) := by simp [takeSample, h]

end Sys2Proof.Machine
end

