-- ==== Sys2Proof/Laws/Unpack.lean ====
section
/-! SUPPORT. The bits of the payload stream, of a channel and of the flag byte; what the unpacker does. -/

namespace Sys2Proof.Machine

/-- Digits of n bits as one little-endian number. -/
def leNumber {n : Nat} : List (BitVec n) → Nat
  | [] => 0
  | b :: bs => 2 ^ n * leNumber bs + b.toNat

/-- A sum of shifted digits, as in R63, is the little-endian number. -/
theorem shiftSum_eq_leNumber {n : Nat} (len : Nat) (f : Fin len → BitVec n) :
    ((List.finRange len).map fun j => (f j).toNat <<< (n * j.val)).sum = leNumber (List.ofFn f) := by
  induction len with
  | zero => rfl
  | succ len ih =>
    have h : ∀ j : Fin len, (f j.succ).toNat <<< (n * j.succ.val) = 2 ^ n * ((f j.succ).toNat <<< (n * j.val)) := by
      intro j
      rw [Nat.shiftLeft_eq, Nat.shiftLeft_eq, Fin.val_succ, Nat.mul_add, pow_add]
      ring
    rw [List.finRange_succ, List.map_cons, List.sum_cons, List.map_map, List.ofFn_succ, leNumber, ← ih fun j => f j.succ,
      ← List.sum_map_mul_left, Nat.add_comm]
    congr 1
    exact congrArg List.sum (List.map_congr_left fun j _ => h j)

theorem leNumber_testBit {n : Nat} (bs : List (BitVec n)) (j m : Nat) (hj : j < bs.length) (hm : m < n) :
    (leNumber bs).testBit (n * j + m) = bs[j].getLsbD m := by
  induction bs generalizing j with
  | nil => simp at hj
  | cons b bs ih =>
    rw [leNumber, Nat.testBit_two_pow_mul_add _ b.isLt]
    cases j with
    | zero => rw [if_pos (by omega), Nat.mul_zero, Nat.zero_add]; rfl
    | succ j =>
      rw [Nat.mul_succ, if_neg (by omega), show n * j + n + m - n = n * j + m by omega]
      exact ih j (by simpa using hj)

theorem leNumber_lt {n : Nat} (bs : List (BitVec n)) : leNumber bs < 2 ^ (n * bs.length) := by
  induction bs with
  | nil => simp [leNumber]
  | cons b bs ih =>
    have hb := b.isLt
    have : 2 ^ n * (leNumber bs + 1) ≤ 2 ^ n * 2 ^ (n * bs.length) := Nat.mul_le_mul_left _ ih
    rw [leNumber, List.length_cons, Nat.mul_succ, pow_add, Nat.mul_comm (2 ^ (n * bs.length))]
    rw [Nat.mul_succ] at this
    omega

/-- "payload byte j contributes its bit m as stream bit 8j + m" (20_memory.md R52). -/
theorem payloadStream_getLsbD (w : Frame) {j m : Nat} (hj : j < 22) (hm : m < 8) :
    (payloadStream w).getLsbD (8 * j + m) = w[1 + j].getLsbD m := by
  rw [payloadStream, BitVec.getLsbD_ofNat, shiftSum_eq_leNumber (n := 8) 22 fun j => w[1 + j.val],
    decide_eq_true (by omega), Bool.true_and, leNumber_testBit _ j m (by rw [List.length_ofFn]; exact hj) hm,
    List.getElem_ofFn]

/-- A packet's channel field holds bit i of channel k at `11k + i` (30_encoding.md R80). -/
theorem channelField_getLsbD (p : Packet) {k i : Nat} (hk : k < 16) (hi : i < 11) :
    (channelField p).getLsbD (11 * k + i) = (p.channels[k]).getLsbD i := by
  rw [channelField, BitVec.getLsbD_ofNat, shiftSum_eq_leNumber (n := 11) 16 fun k => p.channels[k.val],
    decide_eq_true (by omega), Bool.true_and, leNumber_testBit _ k i (by rw [List.length_ofFn]; exact hk) hi,
    List.getElem_ofFn]

theorem channelOf_getLsbD (P : PayloadStream) (k : Nat) {i : Nat} (hi : i < 11) :
    (channelOf P k).getLsbD i = P.getLsbD (11 * k + i) := by
  rw [channelOf, BitVec.getLsbD_extractLsb', decide_eq_true hi, Bool.true_and]

theorem channelsOf_getElem (w : Frame) (k : Nat) (hk : k < 16) :
    (channelsOf w)[k] = channelOf (payloadStream w) k := by
  rw [channelsOf, Vector.getElem_ofFn]

/-- The flag test reads bit i. -/
theorem isFlagSet_eq (b : Byte) (i : Nat) : isFlagSet b i = b.getLsbD i := by
  have h : (b >>> i) &&& 1#8 = if b.getLsbD i then 1#8 else 0#8 := by
    apply BitVec.eq_of_getLsbD_eq
    intro k hk
    rw [BitVec.getLsbD_and, BitVec.getLsbD_ushiftRight, BitVec.getLsbD_one]
    by_cases h0 : k = 0
    · subst h0
      cases b.getLsbD i <;> simp_all
    · cases b.getLsbD i <;> simp [h0]
  rw [isFlagSet, h]
  cases b.getLsbD i <;> rfl

theorem readWindow_append (w : Frame) (rest : Ring) : readWindow (w.toList ++ rest) = .ok w := by
  rw [readWindow, windowOf_append]

/-- All that the unpacker does: the packet of the window, and its 25 bytes removed (R118, R119). -/
theorem unpack_append (w : Frame) (rest : Ring) : unpack (w.toList ++ rest) = .ok (packetOf w, rest) := by
  rw [unpack, readWindow_append]
  simp

/-- An answer of the unpacker comes from a whole window. -/
theorem unpack_cases {q q' : Ring} {p : Packet} (h : unpack q = .ok (p, q')) :
    ∃ w : Frame, q = w.toList ++ q' ∧ p = packetOf w := by
  cases hw : windowOf q with
  | none => rw [unpack, readWindow, hw] at h; cases h
  | some w =>
    obtain ⟨rest, rfl⟩ := windowOf_eq_some_iff.1 hw
    rw [unpack_append] at h
    cases h
    exact ⟨w, rfl, rfl⟩

theorem unpack_wf {q q' : Ring} {p : Packet} (h : Ring.wf q = true) (hu : unpack q = .ok (p, q')) :
    Ring.wf q' = true := by
  obtain ⟨w, rfl, -⟩ := unpack_cases hu
  exact Ring.wf_of_suffix h (List.suffix_append _ _)

end Sys2Proof.Machine
end

