-- ==== Sys2Proof/Laws/Commands.lean ====
section
/-! SUPPORT. What each command and one step can do, one lemma each. -/

namespace Sys2Proof.Machine

/-! ### TRY_PARSE -/

/-- The state a TRY_PARSE leaves: the ring it leaves, and its response. -/
def afterParse (s : State) (q : Ring) (r : Response) : State := (s.setQ q).setResp (some r)

@[simp] theorem afterParse_q (s : State) (q : Ring) (r : Response) : (afterParse s q r).q = q := rfl
@[simp] theorem afterParse_resp (s : State) (q : Ring) (r : Response) : (afterParse s q r).resp = some r := rfl
@[simp] theorem afterParse_inputs (s : State) (q : Ring) (r : Response) : (afterParse s q r).inputs = s.inputs := rfl

theorem tryParseIn_of_notReady {m : ResyncMode} {s : State} {q' : Ring} (h : locate m s.q = .ok (.notReady, q')) :
    tryParseIn m s = .next (afterParse s q' .notReady) := by
  rw [tryParseIn, h]; rfl

theorem tryParseIn_of_accept {m : ResyncMode} {s : State} {w : Frame} {rest : Ring}
    (h : locate m s.q = .ok (.accept, w.toList ++ rest)) :
    tryParseIn m s = .next (afterParse s rest (.packet (packetOf w))) := by
  rw [tryParseIn, h]
  simp only [unpack_append]
  rfl

/-- All that a TRY_PARSE does, in either mode: NotReady with a suffix of the ring, or the packet of a valid frame and
what follows it. -/
theorem tryParseIn_cases (m : ResyncMode) (s : State) :
    (∃ q', locate m s.q = .ok (.notReady, q') ∧ q' <:+ s.q ∧
      tryParseIn m s = .next (afterParse s q' .notReady)) ∨
    (∃ (w : Frame) (rest : Ring), locate m s.q = .ok (.accept, w.toList ++ rest) ∧ w.toList ++ rest <:+ s.q ∧
      frameValid w = true ∧ tryParseIn m s = .next (afterParse s rest (.packet (packetOf w)))) := by
  obtain ⟨v, q', h, hs, hv⟩ := locate_ok m s.q
  cases v with
  | notReady => exact .inl ⟨q', h, hs, tryParseIn_of_notReady h⟩
  | accept =>
    obtain ⟨w, rest, rfl, hw⟩ := headsValidFrame_iff.1 (hv rfl)
    exact .inr ⟨w, rest, h, hs, hw, tryParseIn_of_accept h⟩

/-- This hardware's TRY_PARSE runs in mode POP_ONE. -/
theorem exec_tryParse (s : State) : exec .tryParse s = tryParseIn .popOne s := rfl

theorem exec_tryParse_of_notReady {s : State} {q' : Ring} (h : locate .popOne s.q = .ok (.notReady, q')) :
    exec .tryParse s = .next (afterParse s q' .notReady) := tryParseIn_of_notReady h

theorem exec_tryParse_of_accept {s : State} {w : Frame} {rest : Ring}
    (h : locate .popOne s.q = .ok (.accept, w.toList ++ rest)) :
    exec .tryParse s = .next (afterParse s rest (.packet (packetOf w))) := tryParseIn_of_accept h

theorem exec_pushByte (b : Byte) (s : State) :
    exec (.pushByte b) s = .next ((s.setQ (ringPush s.q b)).setResp none) := rfl

theorem exec_new (s : State) : exec .new s = .next ((s.setQ []).setResp none) := rfl

/-! ### Any command -/

/-- All that a command can do. -/
theorem exec_cases (i : Instr) (s : State) :
    (∃ b, i = .pushByte b ∧ exec i s = .next ((s.setQ (ringPush s.q b)).setResp none)) ∨
    (i = .new ∧ exec i s = .next ((s.setQ []).setResp none)) ∨
    (∃ q', i = .tryParse ∧ q' <:+ s.q ∧ exec i s = .next (afterParse s q' .notReady)) ∨
    (∃ (w : Frame) (rest : Ring), i = .tryParse ∧ w.toList ++ rest <:+ s.q ∧ frameValid w = true ∧
      exec i s = .next (afterParse s rest (.packet (packetOf w)))) := by
  cases i with
  | pushByte b => exact .inl ⟨b, rfl, rfl⟩
  | new => exact .inr (.inl ⟨rfl, rfl⟩)
  | tryParse =>
    rcases tryParseIn_cases .popOne s with ⟨q', -, h, e⟩ | ⟨w, rest, -, h, hv, e⟩
    · exact .inr (.inr (.inl ⟨q', rfl, h, e⟩))
    · exact .inr (.inr (.inr ⟨w, rest, rfl, h, hv, e⟩))

/-- A command neither reads nor writes the host's queue. -/
theorem exec_setInputs (i : Instr) (s t : State) (ps : List PortSample) (h : exec i s = .next t) :
    exec i (s.setInputs ps) = .next (t.setInputs ps) ∧ t.inputs = s.inputs := by
  cases i with
  | pushByte b => rw [exec_pushByte] at h; cases h; exact ⟨rfl, rfl⟩
  | new => rw [exec_new] at h; cases h; exact ⟨rfl, rfl⟩
  | tryParse =>
    rw [exec_tryParse] at h
    rcases tryParseIn_cases .popOne s with ⟨q', hl, -, e⟩ | ⟨w, rest, hl, -, -, e⟩ <;> rw [e] at h <;> cases h
    · exact ⟨exec_tryParse_of_notReady (q' := q') (by rw [setInputs_q, hl]), rfl⟩
    · exact ⟨exec_tryParse_of_accept (rest := rest) (by rw [setInputs_q, hl]), rfl⟩

/-! ### One step -/

theorem withFetchWord_inputs (s : State) (n w : Nat) :
    (s.withFetchWord n w).inputs = offer (wordOfNat w) :: s.inputs := rfl

theorem withFetchWord_setInputs (s : State) (n w : Nat) : (s.withFetchWord n w).setInputs s.inputs = s := rfl

theorem step_of_no_input {s : State} (h : s.inputs = []) : step s = .next (idle s) := by
  simp [step, takeSample_nil h]

theorem step_of_rst {s : State} {p : PortSample} {ps : List PortSample} (h : s.inputs = p :: ps) (hr : p.rst = true) :
    step s = .next (clearBlock (s.setInputs ps)) := by
  simp [step, takeSample_cons h, hr]

theorem step_of_idle {s : State} {p : PortSample} {ps : List PortSample} (h : s.inputs = p :: ps) (hr : p.rst = false)
    (hv : p.cmdValid = false) : step s = .next (idle (s.setInputs ps)) := by
  simp [step, takeSample_cons h, hr, hv]

/-- A step with a command offered. -/
theorem step_of_command {s : State} {p : PortSample} {ps : List PortSample} {i : Instr} (h : s.inputs = p :: ps)
    (hr : p.rst = false) (hv : p.cmdValid = true) (hd : decode p.cmd = .ok i) : step s = exec i (s.setInputs ps) := by
  simp only [step, takeSample_cons h, hr, hv, hd, Bool.false_eq_true, if_false, if_true]

/-- A step with a reserved word offered. -/
theorem step_of_reserved {s : State} {p : PortSample} {ps : List PortSample} {r : Reject} (h : s.inputs = p :: ps)
    (hr : p.rst = false) (hv : p.cmdValid = true) (hd : decode p.cmd = .error r) :
    step s = .refused (.reservedWord r) := by
  simp only [step, takeSample_cons h, hr, hv, hd, Bool.false_eq_true, if_false, if_true]

end Sys2Proof.Machine
end

