-- ==== Sys2Proof/Laws/PerInstr.lean ====
section
/-! SUPPORT. Facts about each command as syntax: it is well formed, and its word carries the fixed bits of its row of the
opcode table (30_encoding.md R71). -/

namespace Sys2Proof.Laws

/-- A command is well formed, and its word is of its own row of the table. -/
def RowBits.Statement (i : Instr) : Prop :=
  i.wellFormed = true ∧ opRow i ∈ opTable ∧ (opRow i).holds (encode i) = true

theorem RowBits.pushByte (d : Byte) : RowBits.Statement (.pushByte d) := by
  refine ⟨rfl, List.mem_cons_self, ?_⟩
  have h : encode (.pushByte d) &&& 0x300#10 = 0x000#10 := by
    rw [encode, ← opField_append_dataField (0b00#2 ++ d), opField_append, dataField_append]
    apply BitVec.eq_of_toNat_eq
    have := d.isLt
    rw [BitVec.toNat_and]
    have e : (0b00#2 ++ d : CmdWord).toNat = d.toNat := by
      have h := BitVec.toNat_append 0b00#2 d
      simpa using h
    rw [e]
    apply Nat.eq_of_testBit_eq
    intro i
    rw [Nat.testBit_and]
    by_cases hi : i < 8
    · have : (0x300 : Nat).testBit i = false := by
        interval_cases i <;> rfl
      simp [this]
    · have : d.toNat.testBit i = false := Nat.testBit_lt_two_pow (d.isLt.trans_le (Nat.pow_le_pow_right (by decide) (by omega)))
      simp [this]
  simp [OpRow.holds, opRow, h]

theorem RowBits.tryParse : RowBits.Statement .tryParse := ⟨rfl, by decide, by decide⟩

theorem RowBits.new : RowBits.Statement .new := ⟨rfl, by decide, by decide⟩

end Sys2Proof.Laws
end

