-- ==== Sys2Proof/Laws/Program.lean ====
section
/-! SUPPORT. Lists of commands, one command at a time, a run of pushes, and a run of steps. -/

namespace Sys2Proof.Machine

@[simp] theorem runScript_nil (s : State) : runScript [] s = ([], .next s) := rfl

theorem runScript_cons {i : Instr} {s t : State} (is : List Instr) (h : exec i s = .next t) :
    runScript (i :: is) s = (t.resp.toList ++ (runScript is t).1, (runScript is t).2) := by
  rw [runScript, h]

theorem runScript_replicate_succ {i : Instr} {s t : State} (n : Nat) (h : exec i s = .next t) :
    runScript (List.replicate (n + 1) i) s =
      (t.resp.toList ++ (runScript (List.replicate n i) t).1, (runScript (List.replicate n i) t).2) := by
  rw [List.replicate_succ, runScript_cons _ h]

/-- A run of pushes, in front of any other commands. -/
theorem runScript_pushes {bs : List Byte} (h : bs ≠ []) (is : List Instr) (s : State) :
    runScript (expandPushBytes bs ++ is) s = runScript is ((s.setQ (ringPushAll s.q bs)).setResp none) := by
  induction bs generalizing s with
  | nil => exact absurd rfl h
  | cons b bs ih =>
    rw [show expandPushBytes (b :: bs) ++ is = .pushByte b :: (expandPushBytes bs ++ is) from rfl,
      runScript_cons _ (exec_pushByte b s)]
    by_cases hb : bs = []
    · subst hb; rfl
    · rw [ih hb]; rfl

theorem run_succ_of_next (M : Host.Core) {s t : M.State} (n : Nat) (h : M.step s = .next t) :
    M.run (n + 1) s = M.run n t := by
  rw [Host.Core.run, h]

theorem run_one (M : Host.Core) (s : M.State) : M.run 1 s = M.step s := by
  rw [Host.Core.run]
  cases M.step s <;> rfl

/-- A run of steps, one step at a time. -/
theorem core_run_succ {s t : State} (n : Nat) (h : step s = .next t) :
    Host.Core.run core (n + 1) s = Host.Core.run core n t := run_succ_of_next core n h

theorem core_run_one (s : State) : Host.Core.run core 1 s = step s := run_one core s

end Sys2Proof.Machine
end

