-- ==== Sys2Proof/Laws/Safety.lean ====
section
/-! SUPPORT. The predicates of Safety in the terms proofs use, what Locate does at the fixpoint and on a valid frame, and
what a run of pushes leaves. -/

namespace Sys2Proof.Machine

theorem headerFree_iff (bs : List Byte) : headerFree bs = true ↔ ∀ b ∈ bs, b ≠ 0x0F#8 := by simp [headerFree]

theorem atFixpoint_iff (q : Ring) :
    atFixpoint q = true ↔ q.length < 25 ∨ (q.length = 25 ∧ q.head? ≠ some 0x0F#8) := by simp [atFixpoint]

theorem headsValidFrame_head {q : Ring} (h : headsValidFrame q = true) : q.head? = some 0x0F#8 ∧ 25 ≤ q.length := by
  obtain ⟨w, rest, rfl, hv⟩ := headsValidFrame_iff.1 h
  rw [frame_head?]
  exact ⟨by rw [((frameValid_iff w).1 hv).1], by simp⟩

theorem locatePass_of_fixpoint {q : Ring} (h : atFixpoint q = true) : locatePass q = .ok (.notReady, q) := by
  rw [atFixpoint_iff] at h
  rw [locatePass_eq, resync_of_short (by omega), if_pos]
  exact h.imp_right And.right

theorem locatePass_of_valid {q : Ring} (h : headsValidFrame q = true) : locatePass q = .ok (.accept, q) := by
  obtain ⟨h1, h2⟩ := headsValidFrame_head h
  rw [locatePass_eq, resync_of_header h1, if_neg, if_pos h]
  rintro (h | h)
  · omega
  · exact h h1

theorem lastFifty_of_short {bs : List Byte} (h : bs.length ≤ 50) : lastFifty bs = bs := by
  rw [lastFifty, Nat.sub_eq_zero_of_le h, List.drop_zero]

/-- Keeping the last 50 on the way keeps the last 50 of all. -/
theorem lastFifty_lastFifty_append (p bs : List Byte) : lastFifty (lastFifty p ++ bs) = lastFifty (p ++ bs) := by
  simp only [lastFifty]
  rcases Nat.lt_or_ge p.length 50 with h | h
  · rw [show p.length - 50 = 0 by omega, List.drop_zero]
  · rw [List.drop_append, List.drop_append, List.drop_drop]
    simp only [List.length_append, List.length_drop]
    congr 2 <;> omega

/-- A run of pushes keeps the last 50 bytes (42_commands.md R138). -/
theorem ringPushAll_eq_lastFifty {q : Ring} (h : q.length ≤ 50) (bs : List Byte) :
    ringPushAll q bs = lastFifty (q ++ bs) := by
  induction bs generalizing q with
  | nil => rw [List.append_nil, lastFifty_of_short h]; rfl
  | cons b bs ih =>
    have e : ringPush q b = lastFifty (q ++ [b]) := ringPush_eq_drop h b
    rw [show ringPushAll q (b :: bs) = ringPushAll (ringPush q b) bs from rfl, ih (ringPush_length_le h b), e,
      lastFifty_lastFifty_append, List.append_assoc, List.singleton_append]

end Sys2Proof.Machine
end

