-- ==== Sys2Proof/Tests/Slice0.lean ====
section
/-! SUPPORT. Tests against 95_test_vectors.md and the spec's encodings, the smoke tests of the well-formedness checks, and
for every statement with hypotheses a witness that meets them all. -/

namespace Sys2Proof.Tests

open Sys2Proof Sys2Proof.Machine

/-- A state that holds the given bytes, nothing offered. -/
def holding (q : Ring) : State := State.reset.setQ q

/-- The frame of scenario S1 (95_test_vectors.md §1). -/
def s1 : Ring :=
  [0x0F, 0xE0, 0x03, 0x1F, 0x58, 0xC0, 0x07, 0x16, 0xB0, 0x80, 0x05, 0x2C, 0x60, 0x01, 0x0B, 0xF8, 0xC0, 0x07,
   0x00, 0x00, 0x00, 0x00, 0x00, 0x03, 0x00]

/-- S1 as a frame. -/
def s1Frame : Frame :=
  #v[0x0F, 0xE0, 0x03, 0x1F, 0x58, 0xC0, 0x07, 0x16, 0xB0, 0x80, 0x05, 0x2C, 0x60, 0x01, 0x0B, 0xF8, 0xC0, 0x07,
   0x00, 0x00, 0x00, 0x00, 0x00, 0x03, 0x00]

/-- PKT_S1 (95_test_vectors.md). -/
def s1Packet : Packet where
  channels := #v[992, 992, 352, 992, 352, 352, 352, 352, 352, 352, 992, 992, 0, 0, 0, 0]
  d1 := true
  d2 := true
  frameLost := false
  failsafe := false

/-- The frame of UNP-6 (95_test_vectors.md §2.4). -/
def unp6 : Ring :=
  [0x0F, 0x00, 0x08, 0x84, 0x40, 0x06, 0x43, 0xA0, 0x42, 0x19, 0xEC, 0x70, 0x08, 0x4C, 0xA4, 0x42, 0x17, 0xCB,
   0xE0, 0x46, 0x3B, 0xFC, 0xF1, 0x05, 0x00]

/-- A full ring: 00, 01, ..., 31 (RING-3). -/
def fullRing : Ring := (List.range 50).map (BitVec.ofNat 8)

/-! ### The well-formedness checks refuse ill-formed terms -/

theorem test_reserved_op_is_ill_formed : opLegal 0b1100000000#10 = false := by decide
theorem test_try_parse_with_data_is_ill_formed : dataLegal 0b0100000001#10 = false := by decide
theorem test_new_with_data_is_ill_formed : wordLegal 0b1010000000#10 = false := by decide
theorem test_number_256_is_no_byte : (AsmLine.pushByte 256).wellFormed = false := by decide
theorem test_list_with_256_is_ill_formed : (AsmLine.pushBytes [0, 256]).wellFormed = false := by decide
theorem test_every_command_is_well_formed :
    (Instr.pushByte 0xFF).wellFormed = true ∧ Instr.tryParse.wellFormed = true ∧ Instr.new.wellFormed = true := by decide

/-! ### Decoding: words written out from 30_encoding.md R71 -/

theorem test_push_byte_word : decode 0b0010101010#10 = .ok (.pushByte 0b10101010#8) := by decide
theorem test_try_parse_word : decode 0b0100000000#10 = .ok .tryParse := by decide
theorem test_new_word : decode 0b1000000000#10 = .ok .new := by decide
theorem test_reserved_words : decode 0x101#10 = .error (.nonzeroData 0x101#10) ∧
    decode 0x2FF#10 = .error (.nonzeroData 0x2FF#10) ∧ decode 0x300#10 = .error (.reservedOp 0x300#10) := by decide
theorem test_table_words : decodeTableWord 16 0x0F = some (.pushByte 0x0F#8) ∧ decodeTableWord 16 0x100 = some .tryParse ∧
    decodeTableWord 16 0x200 = some .new ∧ decodeTableWord 16 0x400 = none := by decide
theorem test_encode_words : encode (.pushByte 0x0F) = 0x00F#10 ∧ encode .tryParse = 0x100#10 ∧ encode .new = 0x200#10 := by
  decide

/-! ### The commands -/

/-- CMD-1. -/
theorem test_new_empties_a_full_ring : blockView (exec .new (holding fullRing)) = some ([], none) := by decide

/-- RING-3, CMD-3. -/
theorem test_push_evicts_the_oldest :
    blockView (exec (.pushByte 0xAA) (holding fullRing)) = some (fullRing.drop 1 ++ [0xAA], none) := by decide

/-- CMD-2. -/
theorem test_push_into_the_empty_ring : blockView (exec (.pushByte 0x0F) (holding [])) = some ([0x0F], none) := by decide

/-- LOC-4. -/
theorem test_parse_skips_garbage :
    blockView (exec .tryParse (holding (0x00 :: s1))) = some ([], some (.packet s1Packet)) := by decide

/-- LOC-13: the largest removal, 26 bytes. -/
theorem test_parse_removes_twenty_six :
    blockView (exec .tryParse (holding (List.replicate 25 0xAA ++ 0x0F :: List.replicate 24 0x11))) =
      some (List.replicate 24 0x11, some .notReady) := by decide

/-- UNP-6: the response word of one TRY_PARSE. -/
theorem test_response_word :
    (windowOf unp6).map (fun w => respWord (.packet (packetOf w))) =
      some 0x15f1fc3b46e0cb1742a44c0870ec1942a0430640840800#181 := by decide

/-- UNP-3: a channel of three bytes. -/
theorem test_three_byte_channel :
    (windowOf ([0x0F, 0x00, 0x00, 0xC0, 0xFF, 0x01] ++ List.replicate 19 0x00)).map (fun w => respWord (.packet (packetOf w))) =
      some 0x10000000000000000000000000000000000001ffc00000#181 := by decide

/-! ### The step -/

theorem test_fetched_word_runs : (match step (State.reset.withFetchWord 16 0x0AA) with
    | .next t => decide (t = { q := [0xAA], resp := none, inputs := [] }) | _ => false) = true := by decide

/-- CMD-8. -/
theorem test_reserved_word_is_refused : (match step (State.reset.withFetchWord 16 0x300) with
    | .refused r => decide (r = .reservedWord (.reservedOp 0x300#10)) | _ => false) = true := by decide

/-- 70_reset_and_hazards.md R171: a command offered while rst = 1 is not accepted. -/
theorem test_rst_drops_the_offer : (match step ((holding s1).setInputs [⟨true, true, 0x0AA#10⟩]) with
    | .next t => decide (t = State.reset) | _ => false) = true := by decide

/-- RING-11: the realization with head = 49, full. -/
theorem test_circular_buffer_wraps :
    let r : RingStore := { storage := Vector.replicate 50 0, head := 49, count := 50 }
    (storePush r 0xAA).head = 0 ∧ (storePush r 0xAA).count = 50 ∧ storePeek (storePush r 0xAA) 49 = some 0xAA := by decide

theorem test_assembler_line : parseLine [' ', 'P', 'u', 's', 'h', '_', 'b', 'y', 't', 'e', '\t', '0', 'x', 'a', 'A'] =
    some (.pushByte 0xAA) := by decide
theorem test_assembler_list : parseLine ('p' :: "ush_bytes".toList ++ [' ', '1', '5', ',', '0', 'x', 'E', '0']) =
    some (.pushBytes [15, 224]) := by decide
theorem test_assembler_refuses_256 : parseLine ("push_byte 256".toList) = none := by decide

/-! ### Witnesses: the hypotheses of the statements can be met, each clause at a boundary of its range -/

theorem witness_DecodeAndEncodeAgree :
    (Instr.pushByte 0xFF).wellFormed = true ∧ decode 0x0FF#10 = .ok (.pushByte 0xFF) ∧ decode 0x200#10 = .ok .new := by decide

theorem witness_DecoderFollowsTheOpcodeMap :
    opField 0x0FF#10 = 0b00#2 ∧
    (opField 0x100#10 = 0b01#2 ∧ dataField 0x100#10 = 0#8) ∧ (opField 0x101#10 = 0b01#2 ∧ dataField 0x101#10 ≠ 0#8) ∧
    (opField 0x200#10 = 0b10#2 ∧ dataField 0x200#10 = 0#8) ∧ (opField 0x2FF#10 = 0b10#2 ∧ dataField 0x2FF#10 ≠ 0#8) ∧
    opField 0x3FF#10 = 0b11#2 := by decide

theorem witness_DecodedWordsAreTheTablesWords : decode 0x100#10 = .ok .tryParse := by decide

theorem witness_RingPushEvictsTheOldest : fullRing.length ≤ 50 ∧ fullRing.length = 50 ∧ (fullRing.drop 1).length < 50 := by
  decide

theorem witness_RingPopAndPeekResults :
    ([] : Ring).length = 0 ∧ 0 < ([0x0F] : Ring).length ∧ 1 < ([0x0F, 0xE0] : Ring).length ∧
      ([0x0F, 0xE0] : Ring).length ≤ 2 := by decide

theorem witness_RingDropIsSuccessivePops : 25 ≤ (s1 ++ [0xAA]).length ∧
    locate .popOne (0x00 :: s1) = .ok (.accept, s1) ∧ locate .rescan (0x0F :: s1) = .ok (.accept, s1) := by decide

theorem witness_CircularBufferRealizesTheRing :
    let r : RingStore := { storage := Vector.replicate 50 0, head := 49, count := 50 }
    storeWf r = true ∧ 50 ≤ storeLen r := by decide

theorem witness_ResyncRemovesNoHeader : 25 ≤ s1.length ∧ s1.length ≤ 25 := by decide

theorem witness_LocateRemovalBound : fullRing.length ≤ 50 ∧ (s1.drop 1).length ≤ 24 := by decide

theorem witness_NotReadyCallsReachTheFixpoint :
    (∃ t, tryParseIn .popOne (holding (0x0F :: s1)) = .next t ∧ t.resp = some .notReady ∧
      atFixpoint (holding (0x0F :: s1)).q = false) ∧
    (∃ t, tryParseIn .rescan (holding (s1.drop 1)) = .next t ∧ t.resp = some .notReady) ∧
    atFixpoint (holding (s1.drop 1)).q = true ∧ atFixpoint (holding (0x00 :: s1.take 24)).q = true :=
  ⟨⟨(holding s1).setResp (some .notReady), rfl, rfl, by decide⟩, ⟨(holding (s1.drop 1)).setResp (some .notReady), rfl, rfl⟩,
    by decide, by decide⟩

theorem witness_RescanIsRepeatedPopOne : locate .rescan (0x0F :: s1) = .ok (.accept, s1) ∧ (0x0F :: s1).length ≤ 26 := by decide

theorem witness_LocatorDiscardsOnlyGarbage : locate .popOne (0x0F :: s1) = .ok (.notReady, s1) ∧
    headsValidFrame s1 = true := by decide

theorem witness_AcceptFindsTheFirstFrame : locate .popOne (0x00 :: s1) = .ok (.accept, s1) ∧
    locate .rescan (0x0F :: s1) = .ok (.accept, s1) := by decide

theorem witness_ChannelsAreElevenBitFields : 21 < 22 ∧ 7 < 8 ∧ 15 < 16 ∧ 10 < 11 := by decide

theorem witness_WiringTableGivesTheChannels : (⟨15, 22, 7, 0, 10, 3⟩ : ByteSpan) ∈ wiring ∧ 7 ≤ 7 - 0 ∧
    (⟨7, 11, 7, 0, 10, 3⟩ : ByteSpan) ∈ wiringLow ∧ 1 ≤ (22 : Fin 25).val ∧ (22 : Fin 25).val ≤ 22 := by decide

theorem witness_BoundaryBitsDoNotReachThePacket :
    (∃ w : Frame, w[0] ≠ s1Frame[0] ∧ w[24] ≠ s1Frame[24] ∧ w[23] ≠ s1Frame[23] ∧
      (∀ j : Fin 22, w[1 + j.val] = s1Frame[1 + j.val]) ∧ ∀ i : Fin 4, w[23].getLsbD i.val = s1Frame[23].getLsbD i.val) ∧
    locate .popOne s1 = .ok (.accept, s1) ∧ windowOf s1 = some s1Frame :=
  ⟨⟨((s1Frame.set 0 0x00).set 24 0x01).set 23 0xF3, by decide, by decide, by decide, by decide, by decide⟩,
    by decide, by decide⟩

theorem witness_EveryPacketIsReachable : 15 < 16 ∧ (s1Packet.channels[15]).toNat ≤ 2047 := by decide

theorem witness_NewEmptiesTheRing : ∃ (s t : State) (p : PortSample), exec .new s = .next t ∧
    s.inputs = [p] ∧ p.rst = true :=
  ⟨(holding s1).setInputs [⟨true, true, 0#10⟩], _, _, rfl, rfl, rfl⟩

theorem witness_PushByteAppendsItsByte : (holding fullRing).Inv ∧ ∃ t, exec (.pushByte 0xAA) (holding fullRing) = .next t :=
  ⟨by decide, _, rfl⟩

theorem witness_PushByteFrame : (holding fullRing).Inv ∧ (∃ t, exec (.pushByte 0xAA) (holding fullRing) = .next t) ∧
    fullRing.length = 50 ∧ (holding (fullRing.drop 1)).Inv ∧
    (∃ t, exec (.pushByte 0xAA) (holding (fullRing.drop 1)) = .next t) ∧ (fullRing.drop 1).length < 50 :=
  ⟨by decide, ⟨_, rfl⟩, by decide, by decide, ⟨_, rfl⟩, by decide⟩

theorem witness_TryParseFrame : ∃ t, exec .tryParse (holding (0x0F :: s1)) = .next t :=
  ⟨(holding s1).setResp (some .notReady), rfl⟩

theorem witness_TryParseTestsInOrder :
    ((s1.drop 1).length < 25 ∨ ringPeek (s1.drop 1) 0 ≠ some 0x0F#8) ∧
    (25 ≤ s1.length ∧ ringPeek s1 0 = some 0x0F#8 ∧ windowOf s1 = some s1Frame ∧ frameValid s1Frame = true) ∧
    frameValid (s1Frame.set 24 0x01) = false := by decide

theorem witness_TryParseDecodesTheFrame :
    (holding (0x00 :: s1 ++ [0xAA])).q = [0x00] ++ (s1Frame.toList ++ [0xAA]) ∧ headerFree [0x00] = true ∧
      frameValid s1Frame = true := by decide

theorem witness_FalseHeaderCostsOneByte :
    (holding (0x00 :: 0x0F :: s1)).q = [0x00] ++ 0x0F#8 :: s1 ∧ headerFree [0x00] = true ∧ 24 ≤ s1.length ∧
      headsValidFrame (0x0F#8 :: s1) = false := by decide

theorem witness_TryParseWaitsForData : (s1.drop 1).length < 25 ∧
    ((0x00 :: s1.take 24).length = 25 ∧ ringPeek (0x00 :: s1.take 24) 0 ≠ some 0x0F#8) := by decide

theorem witness_ShortRingIsLeftAlone : (holding (s1.take 24)).q.length < 25 := by decide

theorem witness_RescanGoesPastAFalseHeader : locatePass (0x0F :: s1) = .ok (.falseHeader, s1) ∧
    locatePass (s1.take 24) = .ok (.notReady, s1.take 24) ∧ locatePass (0x00 :: s1) = .ok (.accept, s1) := by decide

theorem witness_ResponsesDependOnTheRingAlone : ∃ s s' : State, s.q = s'.q ∧ s.resp ≠ s'.resp ∧ s.inputs ≠ s'.inputs :=
  ⟨holding s1, ((holding s1).setResp (some .notReady)).setInputs [offer 0#10], by decide⟩

theorem witness_PushBytesKeepsTheLastFifty : (holding s1).Inv ∧ 50 ≤ fullRing.length ∧ ([] : List Byte) = [] := by decide

theorem witness_FrameRoundTrip : State.reset.q = [] ∧ frameValid s1Frame = true := by decide

/-- Garbage, a TRY_PARSE in the middle of the frame. -/
def interleaved : List Instr :=
  expandPushBytes ([0xC0, 0x07, 0x16] ++ s1.take 10) ++ .tryParse :: expandPushBytes ((s1.take 24).drop 10)

/-- With that script, and 25 bytes behind the footer. -/
theorem witness_LeadingBytesDoNotChangeThePacket :
    State.reset.q = [] ∧ frameValid s1Frame = true ∧ headerFree [0xC0, 0x07, 0x16] = true ∧ .new ∉ interleaved ∧
      pushedBytes interleaved = [0xC0, 0x07, 0x16] ++ s1Frame.toList.take 24 ∧ s1.length ≤ 25 :=
  ⟨rfl, by decide, by decide, by simp [interleaved, expandPushBytes, s1], by decide, by decide⟩

theorem witness_FirstValidWindowIsDecoded :
    (holding (0x0F :: s1)).q = [0x0F] ++ (s1Frame.toList ++ []) ∧ frameValid s1Frame = true ∧
      headsValidFrame ((holding (0x0F :: s1)).q.drop 0) = false := by decide

/-- The first clause with the noise 0F, the second with the noise of 90_conflicts.md C2. -/
theorem witness_NoiseDelaysTheFrame :
    State.reset.q = [] ∧ frameValid s1Frame = true ∧
    headsValidFrame (([0x0F] ++ s1Frame.toList).drop 0) = false ∧
    (windowOf (([0x0F, 0x01, 0x02, 0x03, 0x04, 0x05] ++ s1Frame.toList).drop 0)).map frameValid = some true :=
  ⟨rfl, by decide, by decide, by decide⟩

theorem witness_FramesComeInOrder :
    (holding (s1 ++ s1)).q = ([s1Frame, s1Frame].map Vector.toList).flatten ++ [] ∧
      ∀ w ∈ [s1Frame, s1Frame], frameValid w = true :=
  ⟨by decide, fun w hw => by rw [show w = s1Frame by simpa using hw]; decide⟩

theorem witness_TryParseLeavesRoomForAByte : (holding fullRing).Inv := by decide

theorem witness_ResetInputDropsTheOffer : ∃ (s : State) (p q : PortSample), s.inputs = [p, q] ∧ p.rst = true ∧ q = offer 0x100#10 ∧
    decode 0x100#10 = .ok .tryParse :=
  ⟨(holding s1).setInputs [⟨true, true, 0x0AA#10⟩, offer 0x100#10], _, _, rfl, rfl, rfl, by decide⟩

theorem witness_StepRunsTheDecodedCommand :
    ((holding s1).setInputs [offer 0x100#10]).inputs = [offer 0x100#10] ∧ decode 0x100#10 = .ok .tryParse ∧
      decodeTableWord 16 0x100 = some .tryParse := by decide

theorem witness_ReservedWordIsRefused :
    ((holding s1).setInputs [offer 0x300#10]).inputs = [offer 0x300#10] ∧ opField 0x300#10 = 0b11#2 ∧
      (opField 0x101#10 = 0b01#2 ∧ dataField 0x101#10 ≠ 0#8) ∧ (opField 0x2FF#10 = 0b10#2 ∧ dataField 0x2FF#10 ≠ 0#8) := by decide

theorem witness_IdleHoldsTheRing : (holding s1).inputs = [] ∧
    ∃ p : PortSample, ((holding s1).setInputs [p]).inputs = [p] ∧ p.rst = false ∧ p.cmdValid = false :=
  ⟨rfl, ⟨false, false, 0x0AA#10⟩, rfl, rfl, rfl⟩

theorem witness_EveryCommandCompletes : ∃ t, exec .tryParse State.reset = .next t := ⟨State.reset.setResp (some .notReady), rfl⟩

theorem witness_StepKeepsTheRingInvariant :
    let s := (holding fullRing).setInputs [offer 0x0AA#10]
    s.Inv ∧ (∃ t, step s = .next t) ∧ ∃ t, exec (.pushByte 0xAA) s = .next t :=
  ⟨by decide, ⟨((holding (ringPush fullRing 0xAA)).setInputs []), rfl⟩, ⟨_, rfl⟩⟩

theorem witness_OccupancyCountsTheRing : (holding fullRing).Inv := by decide

theorem witness_NoScriptOverflows : (holding fullRing).Inv := by decide

theorem witness_AssemblerReadsItsSpelling : (AsmLine.pushBytes [0, 255]).wellFormed = true ∧
    parseLine nameNew = some .new := by decide

end Sys2Proof.Tests
end

section
/-! What any command and any step can do to the ring, and what the block shows of it (10_state.md). -/

namespace Sys2Proof.Machine

/-! ### The ring's offsets and the occupancy -/

theorem ringPeek_isSome_iff (q : Ring) (i : Nat) : (ringPeek q i).isSome = true ↔ i < q.length := by
  simp [ringPeek]

theorem occupancy_toNat {s : State} (h : s.Inv) : (occupancy s).toNat = s.q.length := by
  have h50 : s.q.length ≤ 50 := (Ring.wf_iff s.q).1 h
  rw [occupancy, ringLen_eq, BitVec.toNat_ofNat, Nat.mod_eq_of_lt (by omega)]

/-! ### Any command -/

/-- A command always gives a next state (60_exceptions.md R150). -/
theorem exec_completes (i : Instr) (s : State) : Completes (exec i s) := by
  rcases exec_cases i s with ⟨_, -, e⟩ | ⟨-, e⟩ | ⟨_, -, -, e⟩ | ⟨_, _, -, -, -, e⟩ <;> exact ⟨_, e⟩

/-- A command keeps the ring invariant: it pushes a byte, empties the ring, or leaves a suffix of it. -/
theorem exec_keeps_inv {i : Instr} {s t : State} (hs : s.Inv) (h : exec i s = .next t) : t.Inv := by
  rcases exec_cases i s with ⟨b, -, e⟩ | ⟨-, e⟩ | ⟨q', -, hq, e⟩ | ⟨w, rest, -, hq, -, e⟩ <;>
    rw [e] at h <;> cases h
  · exact ringPush_wf hs b
  · exact Ring.wf_of_suffix hs List.nil_suffix
  · exact Ring.wf_of_suffix hs hq
  · exact Ring.wf_of_suffix hs ((List.suffix_append _ _).trans hq)

/-- On a ring at the fixpoint TRY_PARSE only waits (40_frame_locator.md R103). -/
theorem exec_tryParse_of_fixpoint {s : State} (h : atFixpoint s.q = true) :
    exec .tryParse s = .next (afterParse s s.q .notReady) :=
  exec_tryParse_of_notReady (by rw [locate_popOne, locatePopOne, locatePass_of_fixpoint h])

/-! ### What the block shows depends on the ring alone -/

@[simp] theorem blockView_next (t : State) : blockView (.next t) = some (t.q, t.resp) := rfl

/-- The ring a command leaves and its response are a function of the ring it finds. -/
theorem blockView_exec_congr (i : Instr) {s s' : State} (h : s.q = s'.q) :
    blockView (exec i s) = blockView (exec i s') := by
  cases i with
  | pushByte b => simp only [exec_pushByte, blockView_next, setResp_q, setResp_resp, setQ_q, h]
  | new => simp only [exec_new, blockView_next, setResp_q, setResp_resp, setQ_q]
  | tryParse =>
    rcases tryParseIn_cases .popOne s with ⟨q', hl, -⟩ | ⟨w, rest, hl, -⟩
    · rw [exec_tryParse_of_notReady hl, exec_tryParse_of_notReady (h ▸ hl)]
      rfl
    · rw [exec_tryParse_of_accept hl, exec_tryParse_of_accept (h ▸ hl)]
      rfl

/-- From equal rings a list of commands brings equal responses: each command leaves equal rings for the next. -/
theorem runScript_responses_congr (is : List Instr) {s s' : State} (h : s.q = s'.q) :
    (runScript is s).1 = (runScript is s').1 := by
  induction is generalizing s s' with
  | nil => rfl
  | cons i is ih =>
    obtain ⟨t, ht⟩ := exec_completes i s
    obtain ⟨t', ht'⟩ := exec_completes i s'
    have hv : t.q = t'.q ∧ t.resp = t'.resp := by
      simpa [ht, ht'] using blockView_exec_congr i h
    rw [runScript_cons is ht, runScript_cons is ht', hv.2, ih hv.1]

/-! ### Any step -/

/-- All that a step can do: with no sample it idles; with one it clears the block under `rst`, idles when nothing is
offered, runs the decoded command, or refuses a reserved word. -/
theorem step_cases (s : State) :
    (s.inputs = [] ∧ step s = .next (idle s)) ∨
    ∃ (p : PortSample) (ps : List PortSample), s.inputs = p :: ps ∧
      ((p.rst = true ∧ step s = .next (clearBlock (s.setInputs ps))) ∨
       (p.rst = false ∧ p.cmdValid = false ∧ step s = .next (idle (s.setInputs ps))) ∨
       (p.rst = false ∧ p.cmdValid = true ∧
         ((∃ i, decode p.cmd = .ok i ∧ step s = exec i (s.setInputs ps)) ∨
          (∃ r, decode p.cmd = .error r ∧ step s = .refused (.reservedWord r))))) := by
  cases hin : s.inputs with
  | nil => exact .inl ⟨rfl, step_of_no_input hin⟩
  | cons p ps =>
    refine .inr ⟨p, ps, rfl, ?_⟩
    cases hr : p.rst with
    | true => exact .inl ⟨rfl, step_of_rst hin hr⟩
    | false =>
      cases hv : p.cmdValid with
      | false => exact .inr (.inl ⟨rfl, rfl, step_of_idle hin hr hv⟩)
      | true =>
        refine .inr (.inr ⟨rfl, rfl, ?_⟩)
        cases hd : decode p.cmd with
        | ok i => exact .inl ⟨i, rfl, step_of_command hin hr hv hd⟩
        | error r => exact .inr ⟨r, rfl, step_of_reserved hin hr hv hd⟩

/-- A step keeps the ring invariant: it holds the ring, empties it, or runs a command. -/
theorem step_keeps_inv {s t : State} (hs : s.Inv) (h : step s = .next t) : t.Inv := by
  rcases step_cases s with
    ⟨-, e⟩ | ⟨p, ps, -, ⟨-, e⟩ | ⟨-, -, e⟩ | ⟨-, -, ⟨i, -, e⟩ | ⟨r, -, e⟩⟩⟩ <;> rw [e] at h
  · cases h; exact hs
  · cases h; exact Ring.wf_of_suffix hs List.nil_suffix
  · cases h; exact hs
  · exact exec_keeps_inv (s := s.setInputs ps) hs h
  · cases h

/-- A step ends in no model fault: a command completes, and nothing else reads the ring. -/
theorem step_ne_fault (s : State) (f : Fault) : step s ≠ .fault f := by
  intro h
  rcases step_cases s with
    ⟨-, e⟩ | ⟨p, ps, -, ⟨-, e⟩ | ⟨-, -, e⟩ | ⟨-, -, ⟨i, -, e⟩ | ⟨r, -, e⟩⟩⟩ <;> rw [e] at h
  · cases h
  · cases h
  · cases h
  · obtain ⟨t, ht⟩ := exec_completes i (s.setInputs ps)
    rw [ht] at h; cases h
  · cases h

/-! ### The statements -/

/-- Settles O51, by the inversion of a step (`step_cases`) and of a command (`exec_cases`). -/
theorem stepKeepsTheRingInvariant : Obligations.StepKeepsTheRingInvariant :=
  ⟨fun _ _ => step_keeps_inv, fun _ _ _ => exec_keeps_inv, ringPeek_isSome_iff, step_ne_fault⟩

/-- Settles O35, by induction over the list of commands. -/
theorem responsesDependOnTheRingAlone : Obligations.ResponsesDependOnTheRingAlone :=
  ⟨fun i _ _ => blockView_exec_congr i, fun is _ _ => runScript_responses_congr is⟩

/-- Settles O52: the empty ring is at the fixpoint of TRY_PARSE. -/
theorem resetMeetsTheRingInvariant : Obligations.ResetMeetsTheRingInvariant := by
  have hinv : State.reset.Inv := (Ring.wf_iff []).2 (Nat.zero_le 50)
  have hfix : atFixpoint State.reset.q = true := (atFixpoint_iff []).2 (.inl (by decide))
  exact ⟨hinv, fun i => exec_completes i State.reset, _, exec_tryParse_of_fixpoint hfix, rfl, rfl⟩

/-- Settles O53: six bits hold every length up to 50. -/
theorem occupancyCountsTheRing : Obligations.OccupancyCountsTheRing := by
  refine ⟨fun s h => ?_, rfl⟩
  rw [occupancy_toNat h]
  exact ⟨rfl, (Ring.wf_iff s.q).1 h⟩

end Sys2Proof.Machine
end

section
/-! The ring primitives, the circular buffer that realizes them (20_memory.md R44 to R50), and a list of commands
offered one a step (R57). -/

namespace Sys2Proof.Machine

/-! ### The circular buffer: its cells and its contents -/

theorem storeWf_iff (r : RingStore) : storeWf r = true ↔ r.head < 50 ∧ r.count ≤ 50 := by simp [storeWf]

theorem storeCell_congr_mod (r : RingStore) {i j : Nat} (h : i % 50 = j % 50) : storeCell r i = storeCell r j := by
  simp only [storeCell, h]

@[simp] theorem storeContents_length (r : RingStore) : (storeContents r).length = r.count := by simp [storeContents]

/-- The realized peek reads the contents, at every offset. -/
theorem storePeek_eq_getElem? (r : RingStore) (i : Nat) : storePeek r i = (storeContents r)[i]? := by
  rw [storePeek, storeContents, List.getElem?_map]
  split_ifs with h
  · rw [List.getElem?_range h, Option.map_some]
  · rw [List.getElem?_eq_none (by rw [List.length_range]; omega), Option.map_none]

/-- What a store holds is what peeking finds. -/
theorem storeContents_eq_of_peek {r : RingStore} {q : Ring} (h : ∀ i, storePeek r i = q[i]?) : storeContents r = q :=
  List.ext_getElem? fun i => by rw [← storePeek_eq_getElem?, h]

/-! ### RingDrop and RingPop, realized: the head moves on, no cell changes -/

theorem storePeek_storeDrop (n : Nat) (r : RingStore) (i : Nat) :
    storePeek (storeDrop n r) i = storePeek r (n + i) := by
  have hcell : storeCell (storeDrop n r) ((storeDrop n r).head + i) = storeCell r (r.head + (n + i)) :=
    storeCell_congr_mod r (by simp only [storeDrop]; omega)
  have hlt : i < (storeDrop n r).count ↔ n + i < r.count := by simp only [storeDrop]; omega
  simp only [storePeek, hcell, hlt]

theorem storeContents_storeDrop (n : Nat) (r : RingStore) :
    storeContents (storeDrop n r) = (storeContents r).drop n :=
  storeContents_eq_of_peek fun i => by rw [storePeek_storeDrop, storePeek_eq_getElem?, List.getElem?_drop]

theorem storeDrop_wf {r : RingStore} (h : storeWf r = true) (n : Nat) : storeWf (storeDrop n r) = true := by
  rw [storeWf_iff] at *
  exact ⟨Nat.mod_lt _ (by decide), by simp only [storeDrop]; omega⟩

/-- An empty store has nothing to pop and stays as it is. -/
theorem storePop_of_empty {r : RingStore} (h : r.count = 0) : storePop r = (none, r) := by rw [storePop, if_pos h]

/-- A pop of a store that holds a byte reads its front and drops it. -/
theorem storePop_of_nonempty {r : RingStore} (h : r.count ≠ 0) : storePop r = (storePeek r 0, storeDrop 1 r) := by
  rw [storePop, if_neg h, storePeek, if_pos (by omega)]; rfl

/-- The realized pop gives the front byte and leaves the rest, as RingPop does. -/
theorem storePop_realizes_ringPop (r : RingStore) :
    (storePop r).1 = (ringPop (storeContents r)).1 ∧ storeContents (storePop r).2 = (ringPop (storeContents r)).2 := by
  by_cases h : r.count = 0
  · have hnil : storeContents r = [] := List.eq_nil_of_length_eq_zero (by rw [storeContents_length, h])
    rw [storePop_of_empty h, hnil, ringPop_nil]
    exact ⟨rfl, rfl⟩
  · rw [storePop_of_nonempty h, ringPop_fst, ringPop_snd, storePeek_eq_getElem?, storeContents_storeDrop,
      List.head?_eq_getElem?]
    exact ⟨rfl, rfl⟩

theorem storePop_wf {r : RingStore} (h : storeWf r = true) : storeWf (storePop r).2 = true := by
  by_cases h0 : r.count = 0
  · rw [storePop_of_empty h0]; exact h
  · rw [storePop_of_nonempty h0]; exact storeDrop_wf h 1

/-! ### RingPush, realized: make room, then write behind the last byte -/

/-- Making room in a full store is dropping one byte. -/
theorem storeEvict_of_full {r : RingStore} (h : r.count = 50) : storeEvict r = storeDrop 1 r := by
  rw [storeEvict, if_pos h, storeDrop, h]

theorem storeEvict_of_not_full {r : RingStore} (h : r.count ≠ 50) : storeEvict r = r := by rw [storeEvict, if_neg h]

/-- An append changes the one cell behind the last byte. -/
theorem storeCell_storeAppend (r : RingStore) (b : Byte) (i : Nat) :
    storeCell (storeAppend r b) i = if (r.head + r.count) % 50 = i % 50 then b else storeCell r i := by
  simp only [storeCell, storeAppend, Vector.getElem_set]

/-- Below 50 bytes the cell behind the last holds none of them, so an append keeps them all. -/
theorem storeContents_storeAppend {r : RingStore} (h : r.count < 50) (b : Byte) :
    storeContents (storeAppend r b) = storeContents r ++ [b] := by
  have hcell (i : Nat) : storeCell (storeAppend r b) ((storeAppend r b).head + i) =
      if (r.head + r.count) % 50 = (r.head + i) % 50 then b else storeCell r (r.head + i) :=
    storeCell_storeAppend r b (r.head + i)
  have hold : ∀ i ∈ List.range r.count,
      storeCell (storeAppend r b) ((storeAppend r b).head + i) = storeCell r (r.head + i) := by
    intro i hi
    have hi := List.mem_range.1 hi
    rw [hcell, if_neg (by omega)]
  have hnew : storeCell (storeAppend r b) ((storeAppend r b).head + r.count) = b := by rw [hcell, if_pos rfl]
  rw [storeContents, show (storeAppend r b).count = r.count + 1 from rfl, List.range_succ, List.map_append,
    List.map_congr_left hold, List.map_singleton, hnew, storeContents]

theorem storeAppend_wf {r : RingStore} (h : storeWf r = true) (hc : r.count < 50) (b : Byte) :
    storeWf (storeAppend r b) = true :=
  (storeWf_iff _).2 ⟨((storeWf_iff r).1 h).1, hc⟩

/-- The realized push keeps the store well formed and pushes onto its contents, as RingPush does. -/
theorem storePush_realizes_ringPush {r : RingStore} (h : storeWf r = true) (b : Byte) :
    storeWf (storePush r b) = true ∧ storeContents (storePush r b) = ringPush (storeContents r) b := by
  have hlen := storeContents_length r
  have hcount : r.count ≤ 50 := ((storeWf_iff r).1 h).2
  by_cases hf : r.count = 50
  · have hroom : (storeDrop 1 r).count < 50 := by simp only [storeDrop]; omega
    rw [storePush, storeEvict_of_full hf, storeContents_storeAppend hroom, storeContents_storeDrop,
      ringPush_of_full (by omega)]
    exact ⟨storeAppend_wf (storeDrop_wf h 1) hroom b, rfl⟩
  · have hroom : r.count < 50 := by omega
    rw [storePush, storeEvict_of_not_full hf, storeContents_storeAppend hroom, ringPush_of_not_full (by omega)]
    exact ⟨storeAppend_wf h hroom b, rfl⟩

/-! ### The ring: the length a push leaves, and repeated pops -/

theorem ringPush_length {q : Ring} (h : q.length ≤ 50) (b : Byte) : (ringPush q b).length = min (q.length + 1) 50 := by
  rw [ringPush_eq_drop h, List.length_drop, List.length_append, List.length_singleton]; omega

/-- The byte pushed is the last. -/
theorem ringPeek_ringPush_last (q : Ring) (b : Byte) :
    ringPeek (ringPush q b) ((ringPush q b).length - 1) = some b := by
  rw [ringPeek, ← List.getLast?_eq_getElem?, ringPush, List.getLast?_concat]

theorem ringPop_iterate (n : Nat) (q : Ring) : (fun r => (ringPop r).2)^[n] q = ringDrop n q := by
  have htail : (fun r => (ringPop r).2) = List.tail := funext fun r => by rw [ringPop_snd, List.drop_one]
  rw [htail, List.tail_iterate, ringDrop_eq]

/-! ### Commands offered one a step -/

/-- The decoder reads a command back from its word (30_encoding.md R75). -/
theorem decode_encode (i : Instr) : decode (encode i) = .ok i := by
  cases i with
  | pushByte d => rw [decode, encode, opField_append, dataField_append, if_pos rfl]
  | tryParse => rfl
  | new => rfl

@[simp] theorem setInputs_setInputs (s : State) (ps ps' : List PortSample) :
    (s.setInputs ps).setInputs ps' = s.setInputs ps' := rfl

theorem offerAll_cons (i : Instr) (is : List Instr) : offerAll (i :: is) = offer (encode i) :: offerAll is := rfl

/-- A step takes a command from the front of the queue and runs it, the rest of the queue left as it was. -/
theorem step_offer {i : Instr} {s t : State} (ps : List PortSample) (h : exec i s = .next t) :
    step (s.setInputs (offer (encode i) :: ps)) = .next (t.setInputs ps) := by
  have hin := setInputs_inputs s (offer (encode i) :: ps)
  rw [step_of_command hin rfl rfl (decode_encode i), setInputs_setInputs]
  exact (exec_setInputs i s t ps h).1

/-- As many steps as a list has commands end as the list does. -/
theorem core_run_offerAll (is : List Instr) (s : State) :
    Host.Core.run core is.length (s.setInputs (offerAll is ++ s.inputs)) = (runScript is s).2 := by
  induction is generalizing s with
  | nil => rfl
  | cons i is ih =>
    obtain ⟨t, ht⟩ := exec_completes i s
    have hin : s.inputs = t.inputs := (exec_setInputs i s t [] ht).2.symm
    rw [offerAll_cons, List.cons_append, List.length_cons, core_run_succ _ (step_offer _ ht), hin, ih,
      runScript_cons is ht]

/-! ### The statements -/

/-- Settles O10, primitive by primitive: a drop moves the head, a pop is a peek and a drop, a push is a drop when the
store is full and then an append. -/
theorem circularBufferRealizesTheRing : Obligations.CircularBufferRealizesTheRing := by
  intro r h
  refine ⟨storePush_realizes_ringPush h, ⟨storePop_wf h, storePop_realizes_ringPop r⟩, storePeek_eq_getElem? r,
    (storeContents_length r).symm, fun n _ => ⟨storeDrop_wf h n, storeContents_storeDrop n r⟩, ?_, rfl⟩
  exact (storeWf_iff _).2 ⟨((storeWf_iff r).1 h).1, Nat.zero_le 50⟩

/-- Settles O7. -/
theorem ringPushEvictsTheOldest : Obligations.RingPushEvictsTheOldest :=
  fun q b h => ⟨ringPush_length h b, ringPeek_ringPush_last q b, fun hf => ringPush_of_full hf b,
    fun hn => ringPush_of_not_full hn.ne b⟩

/-- Settles O9: a pop is a tail, and an accepted ring heads a whole frame. -/
theorem ringDropIsSuccessivePops : Obligations.RingDropIsSuccessivePops := by
  refine ⟨fun n q _ => (ringPop_iterate n q).symm, fun m q q' hl => ?_⟩
  obtain ⟨v, q₁, he, -, hv⟩ := locate_ok m q
  rw [hl] at he
  cases he
  exact (headsValidFrame_head (hv rfl)).2

/-- Settles O54, by induction over the list of commands. -/
theorem offeredCommandsRunInOrder : Obligations.OfferedCommandsRunInOrder := core_run_offerAll

/-- Settles O8, by the two cases of each primitive. -/
theorem ringPopAndPeekResults : Obligations.RingPopAndPeekResults := by
  refine ⟨fun q h => ?_, fun q h => ?_, fun q i h => List.getElem?_eq_getElem h, fun q i h => List.getElem?_eq_none h⟩
  · rw [List.eq_nil_of_length_eq_zero h, ringPop_nil]
  · cases q with
    | nil => cases h
    | cons b q => rfl

end Sys2Proof.Machine
end

section
/-! The decoder over the 1024 words, and the opcode table (30_encoding.md R71, R73 to R75). -/

namespace Sys2Proof.Machine

/-! ### The decoder, one op at a time -/

theorem decode_of_op00 {w : CmdWord} (h : opField w = 0b00#2) : decode w = .ok (.pushByte (dataField w)) := by
  rw [decode, if_pos h]

theorem decode_of_op01 {w : CmdWord} (h : opField w = 0b01#2) :
    decode w = if dataField w = 0x00#8 then .ok .tryParse else .error (.nonzeroData w) := by
  rw [decode, if_neg (by rw [h]; decide), if_pos h]

theorem decode_of_op10 {w : CmdWord} (h : opField w = 0b10#2) :
    decode w = if dataField w = 0x00#8 then .ok .new else .error (.nonzeroData w) := by
  rw [decode, if_neg (by rw [h]; decide), if_neg (by rw [h]; decide), if_pos h]

theorem decode_of_op11 {w : CmdWord} (h : opField w = 0b11#2) : decode w = .error (.reservedOp w) := by
  rw [decode, if_neg (by rw [h]; decide), if_neg (by rw [h]; decide), if_neg (by rw [h]; decide)]

/-- The command a word decodes to has that word. -/
theorem encode_of_decode {w : CmdWord} {i : Instr} (h : decode w = .ok i) : encode i = w := by
  rw [← opField_append_dataField w]
  rcases opField_cases w with ho | ho | ho | ho
  · rw [decode_of_op00 ho] at h; cases h
    rw [ho]; rfl
  · rw [decode_of_op01 ho] at h
    split at h <;> cases h
    next hd => rw [ho, hd]; rfl
  · rw [decode_of_op10 ho] at h
    split at h <;> cases h
    next hd => rw [ho, hd]; rfl
  · rw [decode_of_op11 ho] at h; cases h

/-- The reserved-word check passes the words that decode, and no others (R74). -/
theorem decode_ok_iff_wordLegal (w : CmdWord) : (∃ i, decode w = .ok i) ↔ wordLegal w = true := by
  rcases opField_cases w with ho | ho | ho | ho
  · simp [decode_of_op00 ho, wordLegal, opLegal, dataLegal, ho]
  · by_cases hd : dataField w = 0x00#8 <;> simp [decode_of_op01 ho, wordLegal, opLegal, dataLegal, ho, hd]
  · by_cases hd : dataField w = 0x00#8 <;> simp [decode_of_op10 ho, wordLegal, opLegal, dataLegal, ho, hd]
  · simp [decode_of_op11 ho, wordLegal, opLegal, ho]

/-! ### The rows of the opcode table -/

theorem opRow_mem_opTable (i : Instr) : opRow i ∈ opTable := by
  cases i with
  | pushByte d => exact (Laws.RowBits.pushByte d).2.1
  | tryParse => exact Laws.RowBits.tryParse.2.1
  | new => exact Laws.RowBits.new.2.1

theorem opRow_holds_encode (i : Instr) : (opRow i).holds (encode i) = true := by
  cases i with
  | pushByte d => exact (Laws.RowBits.pushByte d).2.2
  | tryParse => exact Laws.RowBits.tryParse.2.2
  | new => exact Laws.RowBits.new.2.2

theorem opRow_holds_of_decode {w : CmdWord} {i : Instr} (h : decode w = .ok i) : (opRow i).holds w = true := by
  rw [← encode_of_decode h]; exact opRow_holds_encode i

/-- The mask of PUSH_BYTE's row keeps the op and clears the data. -/
theorem and_pushByteMask (w : CmdWord) : w &&& 0x300#10 = opField w ++ 0x00#8 := by
  have hmask : (0x300#10 : CmdWord) = 0b11#2 ++ 0x00#8 := rfl
  have hop : opField w &&& 0b11#2 = opField w := BitVec.and_allOnes
  conv_lhs => rw [← opField_append_dataField w, hmask, BitVec.and_append, hop, BitVec.and_zero]

/-- A word of a row decodes: PUSH_BYTE's row fixes the op 00, each other row the whole word. -/
theorem decode_ok_of_row_holds {w : CmdWord} {r : OpRow} (hr : r ∈ opTable) (h : r.holds w = true) :
    ∃ i, decode w = .ok i := by
  have hfull : w &&& 0x3FF#10 = w := BitVec.and_allOnes
  simp only [opTable, List.mem_cons, List.not_mem_nil, or_false] at hr
  rcases hr with rfl | rfl | rfl <;> simp only [OpRow.holds, beq_iff_eq, hfull] at h
  · rw [and_pushByteMask] at h
    exact ⟨_, decode_of_op00 ((BitVec.append_left_inj (s₂ := 0b00#2) 0x00#8).1 h)⟩
  · exact ⟨.tryParse, by rw [h]; exact decode_encode .tryParse⟩
  · exact ⟨.new, by rw [h]; exact decode_encode .new⟩

/-! ### Counting the words -/

theorem opField_ofNat (n : Nat) : opField (BitVec.ofNat 10 n) = BitVec.ofNat 2 (n / 256) := by
  apply BitVec.eq_of_toNat_eq
  rw [opField, BitVec.extractLsb'_toNat, BitVec.toNat_ofNat, BitVec.toNat_ofNat, Nat.shiftRight_eq_div_pow]
  omega

theorem dataField_ofNat (n : Nat) : dataField (BitVec.ofNat 10 n) = BitVec.ofNat 8 n := by
  apply BitVec.eq_of_toNat_eq
  rw [dataField, BitVec.extractLsb'_toNat, BitVec.toNat_ofNat, BitVec.toNat_ofNat, Nat.shiftRight_zero]
  omega

/-- The numbers of an op's words are the 256 from `256 * op` on, in the order of their data. -/
theorem fields_ofNat {op d : Nat} (hd : d < 256) :
    opField (BitVec.ofNat 10 (256 * op + d)) = BitVec.ofNat 2 op ∧
      dataField (BitVec.ofNat 10 (256 * op + d)) = BitVec.ofNat 8 d := by
  rw [opField_ofNat, dataField_ofNat, Nat.mul_add_div (by decide), Nat.div_eq_of_lt hd]
  refine ⟨rfl, BitVec.eq_of_toNat_eq ?_⟩
  rw [BitVec.toNat_ofNat, BitVec.toNat_ofNat]
  omega

theorem ofNat_data_ne_zero {d : Nat} (h0 : d ≠ 0) (hd : d < 256) : BitVec.ofNat 8 d ≠ 0x00#8 := by
  intro h
  have := congrArg BitVec.toNat h
  rw [BitVec.toNat_ofNat, Nat.mod_eq_of_lt hd] at this
  exact h0 this

theorem countP_range_add (p : Nat → Bool) (m n : Nat) :
    (List.range (m + n)).countP p = (List.range m).countP p + (List.range n).countP fun i => p (m + i) := by
  rw [List.range_add, List.countP_append, List.countP_map]; rfl

theorem countP_range_of_const {p : Nat → Bool} {n : Nat} {c : Bool} (h : ∀ i < n, p i = c) :
    (List.range n).countP p = n * c.toNat := by
  have hc : (List.range n).countP p = (List.range n).countP fun _ => c :=
    List.countP_congr fun i hi => by rw [h i (List.mem_range.1 hi)]
  cases c <;> simp [hc]

/-- A block of 256 words of which only the first, with data 0, gives a command. -/
theorem countP_block_zero {p : Nat → Bool} {z e : Bool} (h0 : p 0 = z) (h : ∀ d < 256, d ≠ 0 → p d = e) :
    (List.range 256).countP p = z.toNat + 255 * e.toNat := by
  have hfirst : (List.range 1).countP p = 1 * z.toNat :=
    countP_range_of_const fun i hi => by rw [Nat.lt_one_iff.1 hi, h0]
  have hrest : ((List.range 255).countP fun i => p (1 + i)) = 255 * e.toNat :=
    countP_range_of_const fun i hi => h (1 + i) (by omega) (by omega)
  rw [show 256 = 1 + 255 from rfl, countP_range_add, hfirst, hrest, Nat.one_mul]

/-- A test that says one thing of all pushes and one of all rejections counts 256 pushes, one TRY_PARSE, one NEW and
255 + 255 + 256 rejections. -/
theorem countP_decode (f : Except Reject Instr → Bool) {push err : Bool}
    (hpush : ∀ d, f (.ok (.pushByte d)) = push) (herr : ∀ r, f (.error r) = err) :
    ((List.range 1024).countP fun n => f (decode (BitVec.ofNat 10 n))) =
      256 * push.toNat + (f (.ok .tryParse)).toNat + (f (.ok .new)).toNat + 766 * err.toNat := by
  have h00 : ((List.range 256).countP fun d => f (decode (BitVec.ofNat 10 d))) = 256 * push.toNat := by
    refine countP_range_of_const fun d hd => ?_
    have ho := (fields_ofNat (op := 0) hd).1
    rw [Nat.mul_zero, Nat.zero_add] at ho
    rw [decode_of_op00 ho, hpush]
  have h01 : ((List.range 256).countP fun d => f (decode (BitVec.ofNat 10 (256 + d)))) =
      (f (.ok .tryParse)).toNat + 255 * err.toNat := by
    refine countP_block_zero rfl fun d hd h0 => ?_
    obtain ⟨ho, hdata⟩ := fields_ofNat (op := 1) hd
    rw [decode_of_op01 ho, hdata, if_neg (ofNat_data_ne_zero h0 hd), herr]
  have h10 : ((List.range 256).countP fun d => f (decode (BitVec.ofNat 10 (512 + d)))) =
      (f (.ok .new)).toNat + 255 * err.toNat := by
    refine countP_block_zero rfl fun d hd h0 => ?_
    obtain ⟨ho, hdata⟩ := fields_ofNat (op := 2) hd
    rw [decode_of_op10 ho, hdata, if_neg (ofNat_data_ne_zero h0 hd), herr]
  have h11 : ((List.range 256).countP fun d => f (decode (BitVec.ofNat 10 (768 + d)))) = 256 * err.toNat :=
    countP_range_of_const fun d hd => by rw [decode_of_op11 (fields_ofNat (op := 3) hd).1, herr]
  rw [show 1024 = 256 + 256 + 256 + 256 from rfl, countP_range_add, countP_range_add, countP_range_add, h00, h01, h10,
    h11]
  omega

/-! ### The statements -/

/-- Settles O3: a decoded word is its command's word, and a word of a row decodes. -/
theorem decodedWordsAreTheTablesWords : Obligations.DecodedWordsAreTheTablesWords := by
  refine ⟨decode_ok_iff_wordLegal, fun w => ?_, fun _ _ => opRow_holds_of_decode⟩
  rw [← decode_ok_iff_wordLegal]
  constructor
  · rintro ⟨i, hi⟩
    exact ⟨opRow i, opRow_mem_opTable i, opRow_holds_of_decode hi⟩
  · rintro ⟨r, hr, h⟩
    exact decode_ok_of_row_holds hr h

/-- Settles O2: the decoder's branches, and the counts block by block (`countP_decode`). -/
theorem decoderFollowsTheOpcodeMap : Obligations.DecoderFollowsTheOpcodeMap := by
  refine ⟨fun w => ⟨decode_of_op00, fun ho hd => ?_, fun ho hd => ⟨.nonzeroData w, ?_⟩, fun ho hd => ?_,
    fun ho hd => ⟨.nonzeroData w, ?_⟩, fun ho => ⟨_, decode_of_op11 ho⟩⟩, ?_⟩
  · rw [decode_of_op01 ho, if_pos hd]
  · rw [decode_of_op01 ho, if_neg hd]
  · rw [decode_of_op10 ho, if_pos hd]
  · rw [decode_of_op10 ho, if_neg hd]
  · intro count
    have hcount (push err : Bool) (f : Except Reject Instr → Bool) (hpush : ∀ d, f (.ok (.pushByte d)) = push)
        (herr : ∀ r, f (.error r) = err) : count f =
          256 * push.toNat + (f (.ok .tryParse)).toNat + (f (.ok .new)).toNat + 766 * err.toNat :=
      countP_decode f hpush herr
    clear_value count
    exact ⟨hcount true false _ (fun _ => rfl) fun _ => rfl, hcount false false _ (fun _ => rfl) fun _ => rfl,
      hcount false false _ (fun _ => rfl) fun _ => rfl, hcount false true _ (fun _ => rfl) fun _ => rfl⟩

end Sys2Proof.Machine
end

section
/-! The packet vector and the response word, field by field (30_encoding.md R79 to R81), the channels of a frame
(41_bit_unpacker.md R111), and which command responds (R78). -/

namespace Sys2Proof.Machine

/-! ### The two fields of a packet vector -/

theorem packetVector_getLsbD_channelField (p : Packet) {i : Nat} (hi : i < 176) :
    (packetVector p).getLsbD i = (channelField p).getLsbD i := by
  rw [packetVector, BitVec.getLsbD_append, if_pos hi]

theorem packetVector_getLsbD_flagField (p : Packet) (i : Nat) :
    (packetVector p).getLsbD (176 + i) = (flagField p).getLsbD i := by
  rw [packetVector, BitVec.getLsbD_append, if_neg (by omega), Nat.add_sub_cancel_left]

/-- The flags from bit 0 up: d1, d2, frame_lost, failsafe. -/
theorem flagField_getLsbD (p : Packet) :
    (flagField p).getLsbD 0 = p.d1 ∧ (flagField p).getLsbD 1 = p.d2 ∧
      (flagField p).getLsbD 2 = p.frameLost ∧ (flagField p).getLsbD 3 = p.failsafe := by
  simp only [flagField, BitVec.getLsbD_append]
  exact ⟨by simp, by simp, by simp, by simp⟩

theorem packetVector_channel (p : Packet) {k : Nat} (hk : k < 16) :
    (packetVector p).extractLsb' (11 * k) 11 = p.channels[k] := by
  apply BitVec.eq_of_getLsbD_eq
  intro i hi
  rw [BitVec.getLsbD_extractLsb', decide_eq_true hi, Bool.true_and, packetVector_getLsbD_channelField p (by omega),
    channelField_getLsbD p hk hi]

/-- Bit 180 of a response word is the one above its packet vector (R79). -/
theorem append_getLsbD_180 (present : BitVec 1) (v : PacketVector) :
    (present ++ v : RespWord).getLsbD 180 = present.getLsbD 0 := BitVec.getLsbD_append (i := 180)

/-! ### The packet of a frame -/

theorem packetOf_channel (w : Frame) {k : Nat} (hk : k < 16) :
    (packetOf w).channels[k] = (payloadStream w).extractLsb' (11 * k) 11 := channelsOf_getElem w k hk

/-- Bit i of channel k is stream bit `11k + i` (R111). -/
theorem packetOf_channel_getLsbD (w : Frame) {k i : Nat} (hk : k < 16) (hi : i < 11) :
    ((packetOf w).channels[k]).getLsbD i = (payloadStream w).getLsbD (11 * k + i) := by
  rw [packetOf_channel w hk]; exact channelOf_getLsbD _ k hi

/-- The stream's number is the sum of R63: 22 bytes fit 176 bits. -/
theorem payloadStream_toNat (w : Frame) :
    (payloadStream w).toNat = ((List.finRange 22).map fun j => (w[1 + j.val]).toNat * 2 ^ (8 * j.val)).sum := by
  have hlt := leNumber_lt (List.ofFn fun j : Fin 22 => w[1 + j.val])
  rw [List.length_ofFn, ← shiftSum_eq_leNumber] at hlt
  rw [payloadStream, BitVec.toNat_ofNat, Nat.mod_eq_of_lt hlt]
  simp only [Nat.shiftLeft_eq]

/-- A stream bit is bit `n mod 8` of payload byte `n / 8`. -/
theorem payloadStream_getLsbD_div_mod (w : Frame) {n : Nat} (hn : n < 176) :
    (payloadStream w).getLsbD n = w[1 + n / 8].getLsbD (n % 8) := by
  rw [← payloadStream_getLsbD w (by omega) (Nat.mod_lt n (by decide)), Nat.div_add_mod]

/-- The channels stand in the packet vector as they stood in the stream. -/
theorem channelField_packetOf (w : Frame) : channelField (packetOf w) = payloadStream w := by
  apply BitVec.eq_of_getLsbD_eq
  intro n hn
  have hk : n / 11 < 16 := by omega
  have hi : n % 11 < 11 := Nat.mod_lt n (by decide)
  calc (channelField (packetOf w)).getLsbD n
      = (channelField (packetOf w)).getLsbD (11 * (n / 11) + n % 11) := by rw [Nat.div_add_mod]
    _ = ((packetOf w).channels[n / 11]).getLsbD (n % 11) := channelField_getLsbD _ hk hi
    _ = (payloadStream w).getLsbD (11 * (n / 11) + n % 11) := packetOf_channel_getLsbD w hk hi
    _ = (payloadStream w).getLsbD n := by rw [Nat.div_add_mod]

/-- The flags stand in the packet vector as they stood in b23. -/
theorem flagField_packetOf (w : Frame) : flagField (packetOf w) = w[23].extractLsb' 0 4 := by
  obtain ⟨h0, h1, h2, h3⟩ := flagField_getLsbD (packetOf w)
  apply BitVec.eq_of_getLsbD_eq
  intro i hi
  rw [BitVec.getLsbD_extractLsb', decide_eq_true hi, Bool.true_and, Nat.zero_add]
  interval_cases i
  · rw [h0]; exact isFlagSet_eq _ 0
  · rw [h1]; exact isFlagSet_eq _ 1
  · rw [h2]; exact isFlagSet_eq _ 2
  · rw [h3]; exact isFlagSet_eq _ 3

/-! ### The statements -/

/-- Settles O5, field by field. -/
theorem responseWordFields : Obligations.ResponseWordFields := by
  refine ⟨fun p _ => packetVector_channel p, fun p => ?_,
    fun p => ⟨append_getLsbD_180 1#1 _, BitVec.extractLsb'_append_eq_right⟩, append_getLsbD_180 0#1 0#180,
    BitVec.extractLsb'_append_eq_right⟩
  obtain ⟨h0, h1, h2, h3⟩ := flagField_getLsbD p
  exact ⟨(packetVector_getLsbD_flagField p 0).trans h0, (packetVector_getLsbD_flagField p 1).trans h1,
    (packetVector_getLsbD_flagField p 2).trans h2, (packetVector_getLsbD_flagField p 3).trans h3⟩

/-- Settles O6: neither field changes between the frame and the packet vector. -/
theorem packetVectorIsFlagsAbovePayload : Obligations.PacketVectorIsFlagsAbovePayload := by
  intro w
  rw [packetVector, flagField_packetOf, channelField_packetOf]

/-- Settles O17: the bits of the stream are the payload's, and a channel is eleven of them. -/
theorem channelsAreElevenBitFields : Obligations.ChannelsAreElevenBitFields := by
  refine fun w => ⟨payloadStream_toNat w, fun j m => payloadStream_getLsbD w, fun k => packetOf_channel w,
    fun k i hk hi => ?_⟩
  rw [packetOf_channel_getLsbD w hk hi, payloadStream_getLsbD_div_mod w (by omega)]

/-- Settles O34, by what each command can do (`exec_cases`). -/
theorem onlyTryParseResponds : Obligations.OnlyTryParseResponds := by
  intro i s
  rcases exec_cases i s with ⟨b, rfl, e⟩ | ⟨rfl, e⟩ | ⟨q', rfl, -, e⟩ | ⟨w, rest, rfl, -, -, e⟩
  · exact ⟨_, e, by simp [respValid]⟩
  · exact ⟨_, e, by simp [respValid]⟩
  · exact ⟨_, e, by simp [respValid]⟩
  · exact ⟨_, e, by simp [respValid]⟩

end Sys2Proof.Machine
end

section
/-! The assembler reads what it prints (30_encoding.md R76; log entry 9). -/

namespace Sys2Proof.Machine

/-! ### Blanks -/

/-- The text begins, with a character that is no blank. -/
def NoBlankFront : List Char → Prop
  | [] => False
  | c :: _ => isBlank c = false

/-- Neither the first nor the last character is a blank, and there is one. -/
def Trimmed (cs : List Char) : Prop := NoBlankFront cs ∧ NoBlankFront cs.reverse

theorem NoBlankFront.append {cs : List Char} (h : NoBlankFront cs) (ds : List Char) : NoBlankFront (cs ++ ds) := by
  cases cs with
  | nil => exact h.elim
  | cons c cs => exact h

theorem NoBlankFront.ne_nil {cs : List Char} (h : NoBlankFront cs) : cs ≠ [] := by
  rintro rfl; exact h

theorem NoBlankFront.dropWhile {cs : List Char} (h : NoBlankFront cs) : cs.dropWhile isBlank = cs := by
  cases cs with
  | nil => rfl
  | cons c cs => exact List.dropWhile_cons_of_neg (Bool.eq_false_iff.1 h)

theorem Trimmed.prepend {cs ds : List Char} (hc : NoBlankFront cs) (hd : Trimmed ds) : Trimmed (cs ++ ds) :=
  ⟨hc.append ds, by rw [List.reverse_append]; exact hd.2.append cs.reverse⟩

theorem trimBlanks_of_trimmed {cs : List Char} (h : Trimmed cs) : trimBlanks cs = cs := by
  rw [trimBlanks, h.1.dropWhile, h.2.dropWhile, List.reverse_reverse]

theorem trimBlanks_blanks_append {bs : List Char} (hb : ∀ c ∈ bs, isBlank c = true) (cs : List Char) :
    trimBlanks (bs ++ cs) = trimBlanks cs := by
  rw [trimBlanks, List.dropWhile_append_of_pos hb, trimBlanks]

theorem isBlank_of_mem_space : ∀ c ∈ [' '], isBlank c = true := List.forall_mem_singleton.2 rfl

/-! ### Numbers -/

/-- A hexadecimal digit has its value, and is neither a blank nor a comma. -/
theorem hexDigit_spec : ∀ d < 16,
    digitValue 16 (hexDigit d) = some d ∧ isBlank (hexDigit d) = false ∧ ',' ≠ hexDigit d := by
  decide

/-- Both digits of a byte are digits. -/
theorem byteDigits_lt (n : Nat) : n / 16 % 16 < 16 ∧ n % 16 < 16 :=
  ⟨Nat.mod_lt _ (by decide), Nat.mod_lt _ (by decide)⟩

theorem readNumber_printNumber {n : Nat} (h : n < 256) : readNumber (printNumber n) = some n := by
  have hhi := (hexDigit_spec _ (byteDigits_lt n).1).1
  have hlo := (hexDigit_spec _ (byteDigits_lt n).2).1
  have hval : (0 * 16 + n / 16 % 16) * 16 + n % 16 = n := by omega
  simp only [printNumber, readNumber, readDigits, hhi, hlo, hval]

theorem trimmed_printNumber (n : Nat) : Trimmed (printNumber n) :=
  ⟨rfl, (hexDigit_spec _ (byteDigits_lt n).2).2.1⟩

theorem comma_notMem_printNumber (n : Nat) : ',' ∉ printNumber n := by
  have hhi := (hexDigit_spec _ (byteDigits_lt n).1).2.2
  have hlo := (hexDigit_spec _ (byteDigits_lt n).2).2.2
  simp [printNumber, hhi, hlo]

/-! ### Lists of numbers -/

/-- A printed number with blanks in front of it holds no comma. -/
theorem comma_notMem_piece {bs : List Char} (hb : ∀ c ∈ bs, isBlank c = true) (n : Nat) : ',' ∉ bs ++ printNumber n := by
  refine List.not_mem_append (fun hm => ?_) (comma_notMem_printNumber n)
  cases hb ',' hm

theorem splitCommas_of_notMem {cs : List Char} (h : ',' ∉ cs) : splitCommas cs = [cs] := by
  induction cs with
  | nil => rfl
  | cons c cs ih =>
    obtain ⟨hc, hcs⟩ : ',' ≠ c ∧ ',' ∉ cs := by simpa only [List.mem_cons, not_or] using h
    rw [splitCommas, if_neg hc.symm, ih hcs]

theorem splitCommas_append_comma {cs : List Char} (h : ',' ∉ cs) (ds : List Char) :
    splitCommas (cs ++ ',' :: ds) = cs :: splitCommas ds := by
  induction cs with
  | nil => rw [List.nil_append, splitCommas, if_pos rfl]
  | cons c cs ih =>
    obtain ⟨hc, hcs⟩ : ',' ≠ c ∧ ',' ∉ cs := by simpa only [List.mem_cons, not_or] using h
    rw [List.cons_append, splitCommas, if_neg hc.symm, ih hcs]

theorem printNumbers_cons_cons (n m : Nat) (ns : List Nat) :
    printNumbers (n :: m :: ns) = printNumber n ++ ',' :: ' ' :: printNumbers (m :: ns) := by
  rw [printNumbers, List.append_assoc]; rfl

/-- A piece that is a printed number, with blanks in front of it or none, is read as that number. -/
theorem readNumbers_piece {n : Nat} (hn : n < 256) {bs : List Char} (hb : ∀ c ∈ bs, isBlank c = true)
    {pieces : List (List Char)} {ns : List Nat} (hs : readNumbers pieces = some ns) :
    readNumbers ((bs ++ printNumber n) :: pieces) = some (n :: ns) := by
  rw [readNumbers, trimBlanks_blanks_append hb, trimBlanks_of_trimmed (trimmed_printNumber n),
    readNumber_printNumber hn, hs]

/-- A printed list is read back, with blanks in front of it or none. -/
theorem readNumbers_printNumbers {n : Nat} {ns : List Nat} (h : ∀ m ∈ n :: ns, m < 256) {bs : List Char}
    (hb : ∀ c ∈ bs, isBlank c = true) :
    readNumbers (splitCommas (bs ++ printNumbers (n :: ns))) = some (n :: ns) := by
  induction ns generalizing n bs with
  | nil =>
    rw [printNumbers, splitCommas_of_notMem (comma_notMem_piece hb n)]
    exact readNumbers_piece (h n List.mem_cons_self) hb rfl
  | cons m ns ih =>
    have hrest : readNumbers (splitCommas ([' '] ++ printNumbers (m :: ns))) = some (m :: ns) :=
      ih (fun k hk => h k (List.mem_cons_of_mem n hk)) isBlank_of_mem_space
    rw [printNumbers_cons_cons, ← List.append_assoc, splitCommas_append_comma (comma_notMem_piece hb n)]
    exact readNumbers_piece (h n List.mem_cons_self) hb hrest

theorem trimmed_printNumbers (n : Nat) (ns : List Nat) : Trimmed (printNumbers (n :: ns)) := by
  induction ns generalizing n with
  | nil => exact trimmed_printNumber n
  | cons m ns ih =>
    have hfront : NoBlankFront (printNumber n ++ [',', ' ']) := (trimmed_printNumber n).1.append [',', ' ']
    exact Trimmed.prepend hfront (ih m)

theorem readOperands_printNumbers {n : Nat} {ns : List Nat} (h : ∀ m ∈ n :: ns, m < 256) :
    readOperands (printNumbers (n :: ns)) = some (n :: ns) := by
  rw [readOperands, if_neg (trimmed_printNumbers n ns).1.ne_nil]
  exact readNumbers_printNumbers h (bs := []) (List.forall_mem_nil _)

/-! ### Lines -/

/-- A mnemonic as the printer writes it: it is not empty, and holds no blank and no capital letter. -/
def IsMnemonic (name : List Char) : Prop :=
  NoBlankFront name ∧ (name.all fun c => !isBlank c && smallLetter c == c) = true

theorem isMnemonic_namePushByte : IsMnemonic namePushByte := ⟨rfl, by decide⟩
theorem isMnemonic_namePushBytes : IsMnemonic namePushBytes := ⟨rfl, by decide⟩

/-- A mnemonic, a space and an operand text are read as that mnemonic with that operand. -/
theorem parseLine_mnemonic_operand {name ops : List Char} (hname : IsMnemonic name) (hops : Trimmed ops) :
    parseLine (name ++ ' ' :: ops) = (readAs name ops).filter AsmLine.wellFormed := by
  obtain ⟨hfront, hchars⟩ := hname
  simp only [List.all_eq_true, Bool.and_eq_true, beq_iff_eq] at hchars
  have hunblank : ∀ c ∈ name, (!isBlank c) = true := fun c hc => (hchars c hc).1
  have hline : trimBlanks (name ++ ' ' :: ops) = name ++ ' ' :: ops := by
    rw [← List.singleton_append, ← List.append_assoc]
    exact trimBlanks_of_trimmed (Trimmed.prepend (hfront.append [' ']) hops)
  have htake : (name ++ ' ' :: ops).takeWhile (fun c => !isBlank c) = name := by
    rw [List.takeWhile_append_of_pos hunblank, List.takeWhile_cons_of_neg (by decide), List.append_nil]
  have hdrop : (name ++ ' ' :: ops).dropWhile (fun c => !isBlank c) = ' ' :: ops := by
    rw [List.dropWhile_append_of_pos hunblank, List.dropWhile_cons_of_neg (by decide)]
  have hsmall : name.map smallLetter = name := by
    rw [List.map_congr_left fun c hc => (hchars c hc).2, List.map_id']
  have hrest : trimBlanks (' ' :: ops) = ops :=
    (trimBlanks_blanks_append isBlank_of_mem_space ops).trans (trimBlanks_of_trimmed hops)
  simp only [parseLine, hline, htake, hdrop, hsmall, hrest]

theorem readAs_namePushByte (rest : List Char) : readAs namePushByte rest = (readNumber rest).map .pushByte := by
  rw [readAs, if_pos rfl]

theorem readAs_namePushBytes (rest : List Char) : readAs namePushBytes rest = (readOperands rest).map .pushBytes := by
  rw [readAs, if_neg (by decide), if_pos rfl]

theorem wellFormed_pushBytes_iff (ns : List Nat) : (AsmLine.pushBytes ns).wellFormed = true ↔ ∀ n ∈ ns, n < 256 := by
  simp [AsmLine.wellFormed, numberIsByte]

theorem parseLine_printLine {l : AsmLine} (h : l.wellFormed = true) : parseLine (printLine l) = some l := by
  cases l with
  | pushByte n =>
    have hn : n < 256 := of_decide_eq_true h
    rw [printLine, parseLine_mnemonic_operand isMnemonic_namePushByte (trimmed_printNumber n), readAs_namePushByte,
      readNumber_printNumber hn, Option.map_some, Option.filter_some_pos h]
  | tryParse => decide
  | new => decide
  | drainAndParse => decide
  | pushBytes ns =>
    cases ns with
    | nil => decide
    | cons n ns =>
      have hns := (wellFormed_pushBytes_iff (n :: ns)).1 h
      rw [printLine, parseLine_mnemonic_operand isMnemonic_namePushBytes (trimmed_printNumbers n ns),
        readAs_namePushBytes, readOperands_printNumbers hns, Option.map_some, Option.filter_some_pos h]

theorem wellFormed_of_parseLine {cs : List Char} {l : AsmLine} (h : parseLine cs = some l) : l.wellFormed = true :=
  (Option.filter_eq_some_iff.1 h).2

/-- push_bytes of a list of bytes is their pushes (42_commands.md R137). -/
theorem expandLine_pushBytes (bs : List Byte) (reads : List (Option Byte)) :
    expandLine (.pushBytes (bs.map BitVec.toNat)) reads = some (expandPushBytes bs) := by
  have hwf : (AsmLine.pushBytes (bs.map BitVec.toNat)).wellFormed = true :=
    (wellFormed_pushBytes_iff _).2 (List.forall_mem_map.2 fun b _ => b.isLt)
  have hbytes : (bs.map BitVec.toNat).map (BitVec.ofNat 8) = bs := by
    rw [List.map_map]
    exact List.map_id'' (fun b => BitVec.ofNat_toNat 8 b) bs
  rw [expandLine, if_pos hwf]
  simp only [hbytes]

/-! ### The statement -/

/-- Settles O57: the printed numbers are split at their commas and read digit by digit (`parseLine_printLine`). -/
theorem assemblerReadsItsSpelling : Obligations.AssemblerReadsItsSpelling :=
  ⟨fun _ => parseLine_printLine, fun _ _ => wellFormed_of_parseLine, expandLine_pushBytes⟩

end Sys2Proof.Machine
end

section
/-! The frame locator: what one Locate call does in either mode, what it removes, and where repeated calls end
(40_frame_locator.md R92 to R105). -/

namespace Sys2Proof.Machine

/-! ### One pass -/

theorem resync_resync (q : Ring) : resync (resync q) = resync q := by
  obtain ⟨-, -, -, hend, -⟩ := resync_spec q
  exact hend.elim resync_of_short resync_of_header

theorem locatePass_resync (q : Ring) : locatePass (resync q) = locatePass q := by
  rw [locatePass, locatePass, resync_resync]

/-- Header-free bytes in front of a whole window's length do not change what a pass ends with. -/
theorem locatePass_skip {gone q : Ring} (hg : headerFree gone = true) (hq : 25 ≤ q.length) :
    locatePass (gone ++ q) = locatePass q := by
  rw [locatePass, resync_skip ((headerFree_iff gone).1 hg) hq, ← locatePass]

/-- A pass that starts at the header of an invalid window removes that byte (R96). -/
theorem locatePass_of_falseHeader {rest : Ring} (hl : 24 ≤ rest.length)
    (hv : headsValidFrame (0x0F#8 :: rest) = false) : locatePass (0x0F#8 :: rest) = .ok (.falseHeader, rest) := by
  have hhead : (0x0F#8 :: rest).head? = some 0x0F#8 := rfl
  rw [locatePass_eq, resync_of_header hhead, hv, if_neg, if_neg Bool.false_ne_true, List.drop_one, List.tail_cons]
  simp only [List.length_cons, hhead, ne_eq, not_true_eq_false, or_false]
  omega

/-! ### One call, by what its first pass finds -/

/-- What a call answers once its first pass has ended: POP_ONE stops behind a false header (R97), RESCAN goes on (R98). -/
def afterPass : ResyncMode → PassEnd × Ring → Except Fault (Verdict × Ring)
  | _, (.accept, q) => .ok (.accept, q)
  | _, (.notReady, q) => .ok (.notReady, q)
  | .popOne, (.falseHeader, q) => .ok (.notReady, q)
  | .rescan, (.falseHeader, q) => locate .rescan q

theorem locate_of_pass {q : Ring} {r : PassEnd × Ring} (m : ResyncMode) (h : locatePass q = .ok r) :
    locate m q = afterPass m r := by
  obtain ⟨e, q'⟩ := r
  cases m with
  | popOne => rw [locate_popOne, locatePopOne, h]; cases e <;> rfl
  | rescan => rw [locate_rescan, locateRescan_unfold, h]; cases e <;> rfl

/-- All that a call does, in either mode: it removes header-free bytes and never goes below 25 by that; then it waits at
the fixpoint, accepts a valid frame, or finds a false header. -/
theorem locate_cases (m : ResyncMode) (q : Ring) :
    ∃ gone q₁, q = gone ++ q₁ ∧ headerFree gone = true ∧ (gone ≠ [] → 25 ≤ q₁.length) ∧
      ((atFixpoint q₁ = true ∧ locate m q = .ok (.notReady, q₁)) ∨
       (headsValidFrame q₁ = true ∧ locate m q = .ok (.accept, q₁)) ∨
       (∃ rest, q₁ = 0x0F#8 :: rest ∧ 24 ≤ rest.length ∧ headsValidFrame q₁ = false ∧
         locate m q = afterPass m (.falseHeader, rest))) := by
  obtain ⟨gone, hq, hg, hend, h25⟩ := resync_spec q
  refine ⟨gone, resync q, hq, (headerFree_iff gone).2 hg, h25, ?_⟩
  rcases locatePass_cases q with ⟨hp, hstop⟩ | ⟨hp, hv, -⟩ | ⟨hp, hv, hl, hhead⟩
  · refine .inl ⟨(atFixpoint_iff _).2 ?_, locate_of_pass m hp⟩
    rcases hstop with hlt | hne
    · exact .inl hlt
    · have hle : (resync q).length ≤ 25 := hend.resolve_right hne
      exact (Nat.lt_or_eq_of_le hle).imp_right fun heq => ⟨heq, hne⟩
  · exact .inr (.inl ⟨hv, locate_of_pass m hp⟩)
  · obtain ⟨rest, hr⟩ := List.head?_eq_some_iff.1 hhead
    rw [hr] at hp hv hl ⊢
    exact .inr (.inr ⟨rest, rfl, Nat.le_of_succ_le_succ hl, hv, locate_of_pass m hp⟩)

theorem locate_of_fixpoint {q : Ring} (m : ResyncMode) (h : atFixpoint q = true) : locate m q = .ok (.notReady, q) :=
  locate_of_pass m (locatePass_of_fixpoint h)

theorem locate_of_valid {q : Ring} (m : ResyncMode) (h : headsValidFrame q = true) : locate m q = .ok (.accept, q) :=
  locate_of_pass m (locatePass_of_valid h)

theorem locate_suffix {m : ResyncMode} {q q' : Ring} {v : Verdict} (h : locate m q = .ok (v, q')) : q' <:+ q := by
  obtain ⟨v₁, q₁, h₁, hs, -⟩ := locate_ok m q
  cases h.symm.trans h₁
  exact hs

/-- Behind a false header a call answers within what follows it. -/
theorem afterPass_falseHeader_suffix {m : ResyncMode} {rest q' : Ring} {v : Verdict}
    (h : afterPass m (.falseHeader, rest) = .ok (v, q')) : q' <:+ rest := by
  cases m with
  | popOne => cases h; exact List.suffix_rfl
  | rescan => exact locate_suffix (m := .rescan) h

/-! ### How much a call removes -/

/-- A call leaves 24 bytes, or all of a shorter ring (R102). -/
theorem locate_length_ge {m : ResyncMode} {q q' : Ring} {v : Verdict} (h : locate m q = .ok (v, q')) :
    min q.length 24 ≤ q'.length := by
  induction hn : q.length using Nat.strong_induction_on generalizing q with
  | _ n ih =>
    obtain ⟨gone, q₁, rfl, -, h25, hcase⟩ := locate_cases m q
    have hstep1 : min (gone ++ q₁).length 24 ≤ q₁.length := by
      cases gone with
      | nil => exact Nat.min_le_left _ _
      | cons b gone => have := h25 (List.cons_ne_nil b gone); omega
    rw [← hn]
    rcases hcase with ⟨-, e⟩ | ⟨-, e⟩ | ⟨rest, rfl, hl, -, e⟩ <;> rw [e] at h
    · cases h; exact hstep1
    · cases h; exact hstep1
    · cases m with
      | popOne => cases h; omega
      | rescan =>
        have hlt : rest.length < n := by rw [← hn, List.length_append, List.length_cons]; omega
        have := ih rest.length hlt h rfl
        omega

theorem locate_removes_le {m : ResyncMode} {q q' : Ring} {v : Verdict} (h : locate m q = .ok (v, q')) :
    q.length - q'.length ≤ q.length - 24 := by
  have := locate_length_ge h
  omega

/-- Away from the fixpoint a NotReady call removes a byte (R103). -/
theorem locate_notReady_length_lt {m : ResyncMode} {q q' : Ring} (hf : atFixpoint q = false)
    (h : locate m q = .ok (.notReady, q')) : q'.length < q.length := by
  obtain ⟨gone, q₁, rfl, -, -, hcase⟩ := locate_cases m q
  rcases hcase with ⟨hfix, e⟩ | ⟨-, e⟩ | ⟨rest, rfl, -, -, e⟩ <;> rw [e] at h
  · cases h
    have hne : gone ≠ [] := by
      rintro rfl
      rw [List.nil_append, hfix] at hf
      cases hf
    have := List.length_pos_iff.2 hne
    rw [List.length_append]; omega
  · cases h
  · have := (afterPass_falseHeader_suffix h).length_le
    rw [List.length_append, List.length_cons]; omega

theorem locate_notReady_eq_iff {m : ResyncMode} {q q' : Ring} (h : locate m q = .ok (.notReady, q')) :
    q' = q ↔ atFixpoint q = true := by
  constructor
  · rintro rfl
    by_contra hf
    exact (locate_notReady_length_lt (by simpa using hf) h).false
  · intro hf
    rw [locate_of_fixpoint m hf] at h
    cases h
    rfl

/-- Calls made until one answers a packet or the ring is at the fixpoint: each of them but the last removes a byte, and
none is made on fewer than 25 (R103). -/
theorem runScript_tryParse_reaches (s : State) : ∃ (k : Nat) (rs : List Response) (t : State), k ≤ s.q.length - 24 ∧
    runScript (List.replicate k .tryParse) s = (rs, .next t) ∧
    (atFixpoint t.q = true ∨ ∃ p, rs.getLast? = some (.packet p)) := by
  induction hn : s.q.length using Nat.strong_induction_on generalizing s with
  | _ n ih =>
    subst hn
    cases hf : atFixpoint s.q with
    | true => exact ⟨0, [], s, Nat.zero_le _, rfl, .inl hf⟩
    | false =>
      have h25 : 25 ≤ s.q.length := by
        by_contra hlt
        rw [(atFixpoint_iff s.q).2 (.inl (by omega))] at hf
        cases hf
      rcases tryParseIn_cases .popOne s with ⟨q', hl, -, -⟩ | ⟨w, rest, hl, -, -, -⟩
      · have hlt := locate_notReady_length_lt hf hl
        obtain ⟨k, rs, t, hk, hrun, hend⟩ := ih q'.length hlt (afterParse s q' .notReady) rfl
        refine ⟨k + 1, .notReady :: rs, t, by omega, ?_, ?_⟩
        · rw [runScript_replicate_succ k (exec_tryParse_of_notReady hl), hrun]; rfl
        · refine hend.imp_right fun ⟨p, hp⟩ => ⟨p, ?_⟩
          rw [List.getLast?_cons, hp, Option.getD_some]
      · refine ⟨1, [.packet (packetOf w)], afterParse s rest (.packet (packetOf w)), by omega, ?_, .inr ⟨packetOf w, rfl⟩⟩
        rw [runScript_replicate_succ 0 (exec_tryParse_of_accept hl)]; rfl

/-! ### RESCAN and repeated POP_ONE calls -/

/-- RESCAN answers on a ring as on the ring that a NotReady call of POP_ONE leaves of it. -/
theorem locate_rescan_of_popOne_notReady {q q' : Ring} (h : locate .popOne q = .ok (.notReady, q')) :
    locate .rescan q = locate .rescan q' := by
  rcases locatePass_cases q with ⟨hp, -⟩ | ⟨hp, -⟩ | ⟨hp, -⟩ <;> rw [locate_of_pass _ hp] at h <;> cases h
  · rw [locate_of_pass _ hp, locate_of_pass _ ((locatePass_resync q).trans hp)]
  · exact locate_of_pass _ hp

theorem locate_rescan_of_popOne_accept {q q' : Ring} (h : locate .popOne q = .ok (.accept, q')) :
    locate .rescan q = .ok (.accept, q') := by
  rcases locatePass_cases q with ⟨hp, -⟩ | ⟨hp, -⟩ | ⟨hp, -⟩ <;> rw [locate_of_pass _ hp] at h <;> cases h
  exact locate_of_pass _ hp

theorem repeatPopOne_succ_of_notReady {q q' : Ring} (n : Nat) (h : locate .popOne q = .ok (.notReady, q')) :
    repeatPopOne (n + 1) q = if q'.length = q.length then .ok (.notReady, q') else repeatPopOne n q' := by
  rw [repeatPopOne, ← locate_popOne, h]; rfl

theorem repeatPopOne_succ_of_accept {q q' : Ring} (n : Nat) (h : locate .popOne q = .ok (.accept, q')) :
    repeatPopOne (n + 1) q = .ok (.accept, q') := by
  rw [repeatPopOne, ← locate_popOne, h]

/-- Calls repeated often enough end as the one RESCAN call does: one that removes nothing stands at the fixpoint, where
RESCAN waits too, and any other NotReady call leaves a shorter ring, on which RESCAN answers the same (R98). -/
theorem repeatPopOne_eq_locate_rescan {n : Nat} {q : Ring} (h : q.length ≤ n) :
    repeatPopOne n q = locate .rescan q := by
  induction n generalizing q with
  | zero =>
    obtain rfl : q = [] := List.eq_nil_of_length_eq_zero (Nat.le_zero.1 h)
    rfl
  | succ n ih =>
    obtain ⟨v, q', hl, hs, -⟩ := locate_ok .popOne q
    cases v with
    | accept => rw [repeatPopOne_succ_of_accept n hl, locate_rescan_of_popOne_accept hl]
    | notReady =>
      rw [repeatPopOne_succ_of_notReady n hl]
      split
      · next heq =>
        have hstay : q' = q := hs.eq_of_length heq
        rw [locate_of_fixpoint .rescan ((locate_notReady_eq_iff hl).1 hstay), hstay]
      · next hne =>
        have hlt : q'.length < q.length := lt_of_le_of_ne hs.length_le hne
        rw [ih (by omega), locate_rescan_of_popOne_notReady hl]

/-! ### What stood in front of an accepted frame -/

/-- Every header byte of `front`, which `tail` follows, heads a window that is no valid frame. -/
def OnlyFalseHeaders (front tail : Ring) : Prop :=
  ∀ (i : Nat) (h : i < front.length), front[i] = 0x0F#8 → headsValidFrame ((front ++ tail).drop i) = false

theorem OnlyFalseHeaders.nil (tail : Ring) : OnlyFalseHeaders [] tail := fun _ h => absurd h (Nat.not_lt_zero _)

theorem OnlyFalseHeaders.cons {b : Byte} {front tail : Ring} (h : OnlyFalseHeaders front tail)
    (hb : b = 0x0F#8 → headsValidFrame (b :: (front ++ tail)) = false) : OnlyFalseHeaders (b :: front) tail
  | 0, _, h0 => hb h0
  | i + 1, hi, h0 => h i (Nat.lt_of_succ_lt_succ hi) h0

theorem OnlyFalseHeaders.headerFree_append {gone front tail : Ring} (hg : headerFree gone = true)
    (h : OnlyFalseHeaders front tail) : OnlyFalseHeaders (gone ++ front) tail := by
  rw [headerFree_iff] at hg
  induction gone with
  | nil => exact h
  | cons b gone ih =>
    exact (ih fun x hx => hg x (List.mem_cons_of_mem b hx)).cons fun hb => absurd hb (hg b List.mem_cons_self)

theorem locate_popOne_accept {q q' : Ring} (h : locate .popOne q = .ok (.accept, q')) :
    ∃ front, q = front ++ q' ∧ headerFree front = true := by
  obtain ⟨gone, q₁, rfl, hg, -, hcase⟩ := locate_cases .popOne q
  rcases hcase with ⟨-, e⟩ | ⟨-, e⟩ | ⟨rest, rfl, -, -, e⟩ <;> rw [e] at h <;> cases h
  exact ⟨gone, rfl, hg⟩

theorem locate_rescan_accept {q q' : Ring} (h : locate .rescan q = .ok (.accept, q')) :
    ∃ front, q = front ++ q' ∧ OnlyFalseHeaders front q' := by
  induction hn : q.length using Nat.strong_induction_on generalizing q with
  | _ n ih =>
    obtain ⟨gone, q₁, rfl, hg, -, hcase⟩ := locate_cases .rescan q
    rcases hcase with ⟨-, e⟩ | ⟨-, e⟩ | ⟨rest, rfl, -, hv, e⟩ <;> rw [e] at h
    · cases h
    · cases h
      exact ⟨gone, rfl, by simpa using (OnlyFalseHeaders.nil q').headerFree_append hg⟩
    · have hlt : rest.length < n := by rw [← hn, List.length_append, List.length_cons]; omega
      obtain ⟨front, rfl, hfront⟩ := ih rest.length hlt h rfl
      exact ⟨gone ++ 0x0F#8 :: front, by simp, (hfront.cons fun _ => hv).headerFree_append hg⟩

/-! ### The statements -/

/-- Settles O11, by the specification of step 1 (`resync_spec`). -/
theorem resyncRemovesNoHeader : Obligations.ResyncRemovesNoHeader := by
  intro q
  obtain ⟨gone, hq, hg, hend, h25⟩ := resync_spec q
  refine ⟨resync_unfold q, by rwa [ringPeek_zero], ⟨gone, hq, (headerFree_iff gone).2 hg⟩, fun hl => ?_, resync_of_short⟩
  by_cases hne : gone = []
  · rw [hne, List.nil_append] at hq
    rwa [← hq]
  · exact h25 hne

/-- Settles O12: a call leaves a suffix of at least 24 bytes, or the whole of a shorter ring. -/
theorem locateRemovalBound : Obligations.LocateRemovalBound := by
  intro m q
  obtain ⟨v, q', h, hs, -⟩ := locate_ok m q
  have hmin := locate_length_ge h
  refine ⟨v, q', h, hs, locate_removes_le h, fun _ => by omega, fun _ => ?_⟩
  exact hs.eq_of_length_le (by omega)

/-- Settles O13, by induction on the number of bytes held. -/
theorem notReadyCallsReachTheFixpoint : Obligations.NotReadyCallsReachTheFixpoint := by
  refine ⟨fun m s t h hr => ?_, fun m s h => ?_, runScript_tryParse_reaches⟩
  · rcases tryParseIn_cases m s with ⟨q', hl, -, e⟩ | ⟨w, rest, -, -, -, e⟩ <;> rw [e] at h <;> cases h
    · exact ⟨locate_notReady_eq_iff hl, fun hf => locate_notReady_length_lt hf hl⟩
    · cases hr
  · exact ⟨_, tryParseIn_of_notReady (locate_of_fixpoint m h), rfl, rfl⟩

/-- Settles O14, by induction on the bound on the number of calls. -/
theorem rescanIsRepeatedPopOne : Obligations.RescanIsRepeatedPopOne :=
  ⟨locateRescan_unfold, fun _ _ _ => locate_removes_le, fun _ _ => repeatPopOne_eq_locate_rescan⟩

/-- Settles O15, by what the one pass of a POP_ONE call finds (`locate_cases`). -/
theorem locatorDiscardsOnlyGarbage : Obligations.LocatorDiscardsOnlyGarbage := by
  refine ⟨fun q q' v h => ?_, fun m _ => locate_of_valid m⟩
  obtain ⟨gone, q₁, rfl, hg, -, hcase⟩ := locate_cases .popOne q
  rcases hcase with ⟨-, e⟩ | ⟨-, e⟩ | ⟨rest, rfl, hl, hv, e⟩ <;> rw [e] at h <;> cases h
  · exact ⟨gone, [], by rw [List.append_nil], hg, .inl rfl⟩
  · exact ⟨gone, [], by rw [List.append_nil], hg, .inl rfl⟩
  · exact ⟨gone, [0x0F#8], by simp, hg, .inr ⟨rfl, rfl, Nat.succ_le_succ hl, hv⟩⟩

/-- Settles O16: under RESCAN by induction on the number of bytes held (`locate_rescan_accept`). -/
theorem acceptFindsTheFirstFrame : Obligations.AcceptFindsTheFirstFrame := by
  intro m q q' h
  obtain ⟨v₁, q₁, h₁, -, hv⟩ := locate_ok m q
  cases h.symm.trans h₁
  refine ⟨(headsValidFrame_head (hv rfl)).2, hv rfl, ?_⟩
  cases m with
  | popOne =>
    obtain ⟨front, hq, hfree⟩ := locate_popOne_accept h
    exact ⟨front, hq, fun _ => hfree, nofun⟩
  | rescan =>
    obtain ⟨front, rfl, hfalse⟩ := locate_rescan_accept h
    exact ⟨front, rfl, nofun, fun _ => hfalse⟩

/-- Settles O30: step 1 removes the header-free bytes, and the pass then removes the one header byte. -/
theorem falseHeaderCostsOneByte : Obligations.FalseHeaderCostsOneByte := by
  intro s garbage rest hq hg hl hv
  have hpass : locatePass s.q = .ok (.falseHeader, rest) := by
    rw [hq, locatePass_skip hg (by rw [List.length_cons]; omega), locatePass_of_falseHeader hl hv]
  exact exec_tryParse_of_notReady (locate_of_pass .popOne hpass)

end Sys2Proof.Machine
end

section
/-! The bit unpacker: the source's formulas and the wiring table give the channels (41_bit_unpacker.md R112, R114), what
of a frame reaches the packet (R115, R116), and a valid frame for every packet (R120). -/

namespace Sys2Proof.Machine

/-! ### Channel bits and payload bits -/

/-- A channel bit and a payload bit at the same stream position are equal (R111). -/
theorem packetOf_channel_getLsbD_of_pos (w : Frame) {k i j m : Nat} (hk : k < 16) (hi : i < 11) (hj : j < 22)
    (hm : m < 8) (hpos : 11 * k + i = 8 * j + m) :
    ((packetOf w).channels[k]).getLsbD i = w[1 + j].getLsbD m := by
  rw [packetOf_channel_getLsbD w hk hi, hpos, payloadStream_getLsbD w hj hm]

/-! ### The source's formulas -/

/-- The value of one term of a formula on a frame (R112). -/
def FormulaTerm.value (w : Frame) (t : FormulaTerm) : Nat := ((w[t.byte]).toNat >>> t.right) <<< t.left

/-- The term moves a byte of the payload to where its bits stand, by their stream positions, in channel k. -/
def FormulaTerm.Aligned (k : Nat) (t : FormulaTerm) : Prop :=
  1 ≤ t.byte.val ∧ t.byte.val ≤ 22 ∧ 8 * (t.byte.val - 1) + t.right = 11 * k + t.left

/-- Bit i of the term's value is a bit of the term's byte, not a zero shifted in. -/
def FormulaTerm.covers (t : FormulaTerm) (i : Nat) : Bool := decide (t.left ≤ i) && decide (t.right + (i - t.left) < 8)

theorem sourceFormulas_aligned (k : Fin 16) : ∀ t ∈ sourceFormulas[k.val]'k.isLt, t.Aligned k.val := by
  unfold FormulaTerm.Aligned
  revert k; decide

theorem sourceFormulas_cover (k : Fin 16) (i : Fin 11) :
    ∃ t ∈ sourceFormulas[k.val]'k.isLt, t.covers i.val = true := by
  revert k i; decide

/-- An aligned term's bit is the channel's own bit, or zero where its byte does not reach. -/
theorem FormulaTerm.value_testBit (w : Frame) {t : FormulaTerm} {k i : Nat} (h : t.Aligned k) (hk : k < 16)
    (hi : i < 11) : (t.value w).testBit i = (t.covers i && ((packetOf w).channels[k]).getLsbD i) := by
  obtain ⟨hlo, hhi, hpos⟩ := h
  rw [FormulaTerm.value, Nat.testBit_shiftLeft, Nat.testBit_shiftRight, BitVec.testBit_toNat, FormulaTerm.covers,
    Bool.and_assoc]
  by_cases hl : t.left ≤ i
  · by_cases hm : t.right + (i - t.left) < 8
    · rw [packetOf_channel_getLsbD_of_pos w (j := t.byte.val - 1) hk hi (by omega) hm (by omega)]
      simp [hl, hm, Nat.add_sub_cancel' hlo]
    · simp [hm, BitVec.getLsbD_of_ge _ _ (Nat.le_of_not_lt hm)]
  · simp [hl]

theorem testBit_foldl_or {α : Type} (f : α → Nat) (xs : List α) (acc i : Nat) :
    (xs.foldl (fun a x => a ||| f x) acc).testBit i = (acc.testBit i || xs.any fun x => (f x).testBit i) := by
  induction xs generalizing acc with
  | nil => simp
  | cons x xs ih => rw [List.foldl_cons, ih, Nat.testBit_or, List.any_cons, Bool.or_assoc]

theorem formulaValue_testBit (w : Frame) (ts : List FormulaTerm) (i : Nat) :
    (formulaValue w ts).testBit i = (ts.any (fun t => (t.value w).testBit i) && decide (i < 11)) := by
  have hfold := testBit_foldl_or (FormulaTerm.value w) ts 0 i
  rw [Nat.zero_testBit, Bool.false_or] at hfold
  rw [← hfold, ← Nat.testBit_two_pow_sub_one, ← Nat.testBit_and]
  rfl

/-- Aligned terms that together cover a bit give the channel's bit. -/
theorem formulaValue_testBit_of_aligned (w : Frame) {ts : List FormulaTerm} {k i : Nat} (hk : k < 16) (hi : i < 11)
    (ha : ∀ t ∈ ts, t.Aligned k) (hc : ∃ t ∈ ts, t.covers i = true) :
    (formulaValue w ts).testBit i = ((packetOf w).channels[k]).getLsbD i := by
  rw [formulaValue_testBit, decide_eq_true hi, Bool.and_true]
  cases hbit : ((packetOf w).channels[k]).getLsbD i with
  | false =>
    refine List.any_eq_false.2 fun t ht => ?_
    rw [FormulaTerm.value_testBit w (ha t ht) hk hi, hbit, Bool.and_false]
    exact Bool.false_ne_true
  | true =>
    obtain ⟨t, ht, hcover⟩ := hc
    refine List.any_eq_true.2 ⟨t, ht, ?_⟩
    rw [FormulaTerm.value_testBit w (ha t ht) hk hi, hbit, hcover, Bool.and_true]

/-! ### The wiring table -/

/-- The span has a width, the same in the byte and in the channel. -/
def ByteSpan.KeepsWidth (sp : ByteSpan) : Prop :=
  sp.lo ≤ sp.hi ∧ sp.hi < 8 ∧ sp.toHi = sp.toLo + (sp.hi - sp.lo) ∧ sp.toHi < 11

/-- The span is of a payload byte and joins equal stream positions. -/
def ByteSpan.Aligned (sp : ByteSpan) : Prop :=
  1 ≤ sp.byte.val ∧ sp.byte.val ≤ 22 ∧ 11 * sp.channel.val + sp.toLo = 8 * (sp.byte.val - 1) + sp.lo

theorem wiring_keepsWidth : ∀ sp ∈ wiring, sp.KeepsWidth := by
  unfold ByteSpan.KeepsWidth; decide

theorem wiring_aligned : ∀ sp ∈ wiring, sp.Aligned := by
  unfold ByteSpan.Aligned; decide

/-- An aligned span carries its byte's bits to its channel's. -/
theorem ByteSpan.carries (w : Frame) {sp : ByteSpan} (hw : sp.KeepsWidth) (ha : sp.Aligned) {i : Nat}
    (hi : i ≤ sp.hi - sp.lo) :
    ((packetOf w).channels[sp.channel]).getLsbD (sp.toLo + i) = (w[sp.byte]).getLsbD (sp.lo + i) := by
  obtain ⟨hle, hhi, hto, hto11⟩ := hw
  obtain ⟨hb1, hb22, hpos⟩ := ha
  have h := packetOf_channel_getLsbD_of_pos w (i := sp.toLo + i) (j := sp.byte.val - 1) (m := sp.lo + i)
    sp.channel.isLt (by omega) (by omega) (by omega) (by omega)
  simpa [Nat.add_sub_cancel' hb1] using h

theorem wiring_uses_payload_bits_once (byte : Fin 25) (h1 : 1 ≤ byte.val) (h22 : byte.val ≤ 22) (bit : Fin 8) :
    wiring.countP (fun sp => sp.byte == byte && decide (sp.lo ≤ bit.val) && decide (bit.val ≤ sp.hi)) = 1 := by
  revert byte bit; decide

theorem wiring_fills_channel_bits_once (k : Fin 16) (bit : Fin 11) :
    wiring.countP (fun sp => sp.channel == k && decide (sp.toLo ≤ bit.val) && decide (bit.val ≤ sp.toHi)) = 1 := by
  revert k bit; decide

/-! ### What of a frame reaches the packet -/

/-- A packet vector holds every field of its packet (30_encoding.md R80). -/
theorem packetVector_injective : Function.Injective packetVector := by
  intro p p' h
  obtain ⟨hchannel, hflags, -⟩ := responseWordFields
  have hch : p.channels = p'.channels := by
    apply Vector.ext
    intro k hk
    rw [← hchannel p k hk, h, hchannel p' k hk]
  obtain ⟨e0, e1, e2, e3⟩ := hflags p
  rw [h] at e0 e1 e2 e3
  obtain ⟨e0', e1', e2', e3'⟩ := hflags p'
  cases p; cases p'
  exact (Packet.mk.injEq ..).mpr ⟨hch, e0.symm.trans e0', e1.symm.trans e1', e2.symm.trans e2', e3.symm.trans e3'⟩

theorem payloadStream_congr {w w' : Frame} (h : ∀ (j : Nat) (hj : j < 22), w[1 + j] = w'[1 + j]) :
    payloadStream w = payloadStream w' := by
  apply BitVec.eq_of_getLsbD_eq
  intro n hn
  rw [payloadStream_getLsbD_div_mod w hn, payloadStream_getLsbD_div_mod w' hn, h (n / 8) (by omega)]

theorem lowNibble_congr {b b' : Byte} (h : ∀ i, i < 4 → b.getLsbD i = b'.getLsbD i) :
    b.extractLsb' 0 4 = b'.extractLsb' 0 4 := by
  apply BitVec.eq_of_getLsbD_eq
  intro i hi
  rw [BitVec.getLsbD_extractLsb', BitVec.getLsbD_extractLsb', Nat.zero_add, h i hi]

/-- The reserved mask is bits 4 and up of the flag byte. -/
theorem getLsbD_reservedMask (i : Nat) : (0xF0#8).getLsbD i = (decide (4 ≤ i) && decide (i < 8)) := by
  by_cases hi : i < 8
  · interval_cases i <;> rfl
  · simp [hi, BitVec.getLsbD_of_ge _ _ (Nat.le_of_not_lt hi)]

theorem and_reservedMask_eq_zero_iff (b : Byte) :
    b &&& 0xF0#8 = 0#8 ↔ ∀ i, 4 ≤ i → b.getLsbD i = false := by
  constructor
  · intro h i hi
    by_cases h8 : i < 8
    · have hbit : (b &&& 0xF0#8).getLsbD i = (0#8).getLsbD i := by rw [h]
      rwa [BitVec.getLsbD_and, getLsbD_reservedMask, decide_eq_true hi, decide_eq_true h8, Bool.and_true, Bool.and_true,
        BitVec.getLsbD_zero] at hbit
    · exact BitVec.getLsbD_of_ge _ _ (Nat.le_of_not_lt h8)
  · intro h
    apply BitVec.eq_of_getLsbD_eq
    intro i _
    rw [BitVec.getLsbD_and, getLsbD_reservedMask]
    by_cases hi : 4 ≤ i
    · simp [h i hi]
    · simp [hi]

theorem frameValid_of_accept {m : ResyncMode} {q q' : Ring} {w : Frame} (h : locate m q = .ok (.accept, q'))
    (hw : windowOf q' = some w) : frameValid w = true := by
  obtain ⟨v, q₁, h₁, -, hv⟩ := locate_ok m q
  cases h.symm.trans h₁
  obtain ⟨rest, rfl⟩ := windowOf_eq_some_iff.1 hw
  rw [← headsValidFrame_append w rest, hv rfl]

/-! ### A valid frame for every packet vector -/

/-- The header, the vector's 180 bits byte by byte from b1 on (the flag byte's upper nibble lies above them), the
footer (30_encoding.md R81). -/
def frameOfVector (v : PacketVector) : Frame :=
  Vector.ofFn fun i : Fin 25 =>
    if i.val = 0 then Config.header else if i.val = 24 then Config.footer else v.extractLsb' (8 * (i.val - 1)) 8

theorem frameOfVector_header (v : PacketVector) : (frameOfVector v)[0] = 0x0F#8 := by
  rw [frameOfVector, Vector.getElem_ofFn]; rfl

theorem frameOfVector_footer (v : PacketVector) : (frameOfVector v)[24] = 0x00#8 := by
  rw [frameOfVector, Vector.getElem_ofFn]; rfl

theorem frameOfVector_getElem (v : PacketVector) {j : Nat} (hj : j < 23) :
    (frameOfVector v)[1 + j] = v.extractLsb' (8 * j) 8 := by
  rw [frameOfVector, Vector.getElem_ofFn, if_neg (show 1 + j ≠ 0 by omega), if_neg (show 1 + j ≠ 24 by omega),
    Nat.add_sub_cancel_left]

theorem frameOfVector_getLsbD (v : PacketVector) {j m : Nat} (hj : j < 23) (hm : m < 8) :
    (frameOfVector v)[1 + j].getLsbD m = v.getLsbD (8 * j + m) := by
  rw [frameOfVector_getElem v hj, BitVec.getLsbD_extractLsb', decide_eq_true hm, Bool.true_and]

theorem frameValid_frameOfVector (v : PacketVector) : frameValid (frameOfVector v) = true := by
  refine (frameValid_iff _).2 ⟨frameOfVector_header v, frameOfVector_footer v, (and_reservedMask_eq_zero_iff _).2 ?_⟩
  intro i hi
  rw [frameOfVector_getElem v (j := 22) (by decide), BitVec.getLsbD_extractLsb',
    BitVec.getLsbD_of_ge v _ (by omega), Bool.and_false]

theorem payloadStream_frameOfVector (v : PacketVector) : payloadStream (frameOfVector v) = v.extractLsb' 0 176 := by
  apply BitVec.eq_of_getLsbD_eq
  intro n hn
  rw [payloadStream_getLsbD_div_mod _ hn, frameOfVector_getLsbD v (by omega) (Nat.mod_lt n (by decide)),
    Nat.div_add_mod, BitVec.getLsbD_extractLsb', decide_eq_true hn, Bool.true_and, Nat.zero_add]

/-- Unpacking the frame gives the vector back. -/
theorem packetVector_packetOf_frameOfVector (v : PacketVector) : packetVector (packetOf (frameOfVector v)) = v := by
  rw [packetVectorIsFlagsAbovePayload, payloadStream_frameOfVector]
  apply BitVec.eq_of_getLsbD_eq
  intro n hn
  rw [BitVec.getLsbD_append]
  by_cases hp : n < 176
  · rw [if_pos hp, BitVec.getLsbD_extractLsb', decide_eq_true hp, Bool.true_and, Nat.zero_add]
  · rw [if_neg hp, BitVec.getLsbD_extractLsb', decide_eq_true (by omega), Bool.true_and,
      frameOfVector_getLsbD v (j := 22) (by decide) (by omega), show 8 * 22 + (0 + (n - 176)) = n by omega]

/-! ### The statements -/

/-- Settles O18, bit by bit: a formula's terms are aligned with the stream and together cover its channel. -/
theorem sourceFormulasGiveTheChannels : Obligations.SourceFormulasGiveTheChannels := by
  intro w k
  apply Nat.eq_of_testBit_eq
  intro i
  rw [BitVec.testBit_toNat]
  by_cases hi : i < 11
  · exact (formulaValue_testBit_of_aligned w k.isLt hi (sourceFormulas_aligned k)
      (sourceFormulas_cover k ⟨i, hi⟩)).symm
  · rw [formulaValue_testBit, decide_eq_false hi, Bool.and_false, BitVec.getLsbD_of_ge _ _ (Nat.le_of_not_lt hi)]

/-- Settles O19: each span joins equal stream positions (`ByteSpan.carries`); the rest is about the table alone. -/
theorem wiringTableGivesTheChannels : Obligations.WiringTableGivesTheChannels :=
  ⟨fun w sp hsp _ => ByteSpan.carries w (wiring_keepsWidth sp hsp) (wiring_aligned sp hsp), wiring_keepsWidth,
    wiring_uses_payload_bits_once, wiring_fills_channel_bits_once, by decide, by decide, by decide⟩

/-- Settles O20, by the flag test (`isFlagSet_eq`). -/
theorem flagsAreTheirOwnBits : Obligations.FlagsAreTheirOwnBits :=
  ⟨isFlagSet_eq, fun _ => ⟨isFlagSet_eq _ 0, isFlagSet_eq _ 1, isFlagSet_eq _ 2, isFlagSet_eq _ 3⟩⟩

/-- Settles O21: the packet vector is made of the low flag nibble and the payload stream alone, and an accepted frame
is valid. -/
theorem boundaryBitsDoNotReachThePacket : Obligations.BoundaryBitsDoNotReachThePacket := by
  constructor
  · intro w w' hpayload hnibble
    apply packetVector_injective
    rw [packetVectorIsFlagsAbovePayload, packetVectorIsFlagsAbovePayload, payloadStream_congr hpayload,
      lowNibble_congr hnibble]
  · intro m q q' w h hw
    obtain ⟨-, -, hreserved⟩ := (frameValid_iff w).1 (frameValid_of_accept h hw)
    exact (and_reservedMask_eq_zero_iff _).1 hreserved

/-- Settles O22: the frame that carries the packet's own vector. -/
theorem everyPacketIsReachable : Obligations.EveryPacketIsReachable :=
  ⟨fun p k _ => Nat.le_of_lt_succ (p.channels[k]).isLt, fun p => ⟨frameOfVector (packetVector p),
    frameValid_frameOfVector _, packetVector_injective (packetVector_packetOf_frameOfVector _)⟩⟩

/-- Settles O23, by evaluation of the unpacker. -/
theorem workedExampleS1 : Obligations.WorkedExampleS1 := by
  unfold Obligations.WorkedExampleS1
  decide

end Sys2Proof.Machine
end

section
/-! What each command does to the ring and leaves unchanged, and what TRY_PARSE answers in both modes (42_commands.md
R131 to R134, R139). -/

namespace Sys2Proof.Machine

theorem exec_inputs {i : Instr} {s t : State} (h : exec i s = .next t) : t.inputs = s.inputs :=
  (exec_setInputs i s t [] h).2

/-! ### PUSH_BYTE -/

/-- With room in the ring a push writes offset `|q|` and nothing else. -/
theorem ringPeek_ringPush_of_not_full {q : Ring} (h : q.length ≠ 50) (b : Byte) :
    ringPeek (ringPush q b) q.length = some b ∧
      ∀ i, i ≠ q.length → ringPeek (ringPush q b) i = ringPeek q i := by
  rw [ringPush_of_not_full h]
  refine ⟨List.getElem?_concat_length, fun i hi => ?_⟩
  rcases Nat.lt_or_gt_of_ne hi with hlt | hgt
  · exact List.getElem?_append_left hlt
  · rw [ringPeek, ringPeek, List.getElem?_eq_none (by simp; omega), List.getElem?_eq_none hgt.le]

/-- On a full ring it writes offset 49, and every other byte moves one offset to the front: dropping the front byte
makes room. -/
theorem ringPeek_ringPush_of_full {q : Ring} (h : q.length = 50) (b : Byte) :
    ringPeek (ringPush q b) 49 = some b ∧
      ∀ i, i ≠ 49 → ringPeek (ringPush q b) i = ringPeek q (i + 1) := by
  have hlen : (q.drop 1).length = 49 := by rw [List.length_drop, h]
  have hpush : ringPush q b = ringPush (q.drop 1) b := by
    rw [ringPush_of_full h, ringPush_of_not_full (by omega)]
  obtain ⟨hlast, hother⟩ := ringPeek_ringPush_of_not_full (q := q.drop 1) (by omega) b
  rw [hlen] at hlast hother
  rw [hpush]
  refine ⟨hlast, fun i hi => ?_⟩
  rw [hother i hi, ringPeek, ringPeek, List.getElem?_drop, Nat.add_comm]

/-! ### TRY_PARSE -/

/-- A suffix reads as the whole does, as many offsets further on as were removed. -/
theorem ringPeek_of_suffix {q q' : Ring} (h : q' <:+ q) (i : Nat) :
    ringPeek q' i = ringPeek q (i + (q.length - q'.length)) := by
  obtain ⟨gone, rfl⟩ := h
  rw [List.length_append, Nat.add_sub_cancel, Nat.add_comm, ringPeek, ringPeek,
    List.getElem?_append_right (Nat.le_add_right _ _), Nat.add_sub_cancel_left]

theorem exec_tryParse_suffix {s t : State} (h : exec .tryParse s = .next t) : t.q <:+ s.q := by
  rw [exec_tryParse] at h
  rcases tryParseIn_cases .popOne s with ⟨q', -, hs, e⟩ | ⟨w, rest, -, hs, -, e⟩ <;> rw [e] at h <;> cases h
  · exact hs
  · exact (List.suffix_append _ _).trans hs

/-- A valid frame behind header-free bytes is decoded, and what follows it is left (R133). -/
theorem exec_tryParse_of_frame {s : State} {garbage rest : Ring} {w : Frame} (hq : s.q = garbage ++ (w.toList ++ rest))
    (hg : headerFree garbage = true) (hw : frameValid w = true) :
    exec .tryParse s = .next (afterParse s rest (.packet (packetOf w))) := by
  have hvalid : headsValidFrame (w.toList ++ rest) = true := by rw [headsValidFrame_append, hw]
  have hpass : locatePass s.q = .ok (.accept, w.toList ++ rest) := by
    rw [hq, locatePass_skip hg (headsValidFrame_head hvalid).2, locatePass_of_valid hvalid]
  exact exec_tryParse_of_accept (locate_of_pass .popOne hpass)

/-- TRY_PARSE answers what the locator's answer says, whatever ring and mode it was found in. -/
theorem tryParseIn_congr {m m' : ResyncMode} {s : State} {q : Ring} (h : locate m s.q = locate m' q) :
    tryParseIn m s = tryParseIn m' (s.setQ q) := by
  rcases tryParseIn_cases m s with ⟨q', hl, -, e⟩ | ⟨w, rest, hl, -, -, e⟩
  · rw [e, tryParseIn_of_notReady (s := s.setQ q) (h.symm.trans hl)]
    rfl
  · rw [e, tryParseIn_of_accept (s := s.setQ q) (h.symm.trans hl)]
    rfl

/-- The two modes differ only in what follows a false header. -/
theorem tryParseIn_rescan_eq_popOne {s : State} {e : PassEnd} {q' : Ring} (h : locatePass s.q = .ok (e, q'))
    (he : e ≠ .falseHeader) : tryParseIn .rescan s = tryParseIn .popOne s := by
  have hloc : locate .rescan s.q = locate .popOne s.q := by
    rw [locate_of_pass .rescan h, locate_of_pass .popOne h]
    cases e with
    | accept => rfl
    | notReady => rfl
    | falseHeader => exact absurd rfl he
  exact tryParseIn_congr hloc

/-! ### The statements -/

/-- Settles O26, by the two cases of a push. -/
theorem pushByteFrame : Obligations.PushByteFrame := by
  intro s t b _ h
  have hin := exec_inputs h
  rw [exec_pushByte] at h
  cases h
  exact ⟨hin, fun hroom => ringPeek_ringPush_of_not_full hroom.ne b, fun hfull => ringPeek_ringPush_of_full hfull b⟩

/-- Settles O27: what TRY_PARSE leaves is a suffix. -/
theorem tryParseFrame : Obligations.TryParseFrame := by
  intro s t h
  have hs := exec_tryParse_suffix h
  exact ⟨exec_inputs h, hs.length_le, ringPeek_of_suffix hs⟩

/-- Settles O29: step 1 removes the garbage, and the pass accepts the frame. -/
theorem tryParseDecodesTheFrame : Obligations.TryParseDecodesTheFrame :=
  fun _ _ _ _ => exec_tryParse_of_frame

/-- Settles O33, by what the pass ends with (`locate_of_pass`); the example by evaluation. -/
theorem rescanGoesPastAFalseHeader : Obligations.RescanGoesPastAFalseHeader := by
  refine ⟨fun s q' h => ⟨tryParseIn_congr (locate_of_pass .rescan h), tryParseIn_of_notReady (locate_of_pass .popOne h)⟩,
    fun s q' h => tryParseIn_rescan_eq_popOne h nofun, fun s q' h => tryParseIn_rescan_eq_popOne h nofun, ?_⟩
  decide

/-- Settles O24. -/
theorem newEmptiesTheRing : Obligations.NewEmptiesTheRing := by
  refine ⟨exec_new, fun s t h => ?_, fun s p ps h hr => ?_⟩
  · rw [exec_new] at h
    cases h
    rfl
  · rw [step_of_rst h hr, exec_new, clearBlock]

/-- Settles O25: the new occupancy is the length a push leaves (`ringPush_length`). -/
theorem pushByteAppendsItsByte : Obligations.PushByteAppendsItsByte := by
  refine ⟨fun s b => exec_pushByte b s, fun s t b hs h => ?_⟩
  have ht := exec_keeps_inv hs h
  rw [exec_pushByte] at h
  cases h
  rw [occupancy_toNat ht, occupancy_toNat hs]
  exact ringPush_length ((Ring.wf_iff s.q).1 hs) b

/-- Settles O47, by the decoder's rejecting branches. -/
theorem reservedWordIsRefused : Obligations.ReservedWordIsRefused := by
  refine fun s w ps h => ⟨fun ho => step_of_reserved h rfl rfl (decode_of_op11 ho), fun ho hd => ?_⟩
  refine step_of_reserved h rfl rfl (?_ : decode w = .error (.nonzeroData w))
  rcases ho with ho | ho
  · rw [decode_of_op01 ho, if_neg hd]
  · rw [decode_of_op10 ho, if_neg hd]

end Sys2Proof.Machine
end

section
/-! Lists of commands: they keep the ring invariant, what pushes leave, and which packets the TRY_PARSE calls among and
behind them bring (42_commands.md R135 to R146). -/

namespace Sys2Proof.Machine

/-! ### Any list of commands -/

/-- The second list runs on what the first left. -/
theorem runScript_append {is : List Instr} {s t : State} {rs : List Response} (h : runScript is s = (rs, .next t))
    (is' : List Instr) : runScript (is ++ is') s = (rs ++ (runScript is' t).1, (runScript is' t).2) := by
  induction is generalizing s rs with
  | nil => cases h; rfl
  | cons i is ih =>
    obtain ⟨u, hu⟩ := exec_completes i s
    rw [runScript_cons is hu] at h
    obtain ⟨rfl, hend⟩ := Prod.mk.inj h
    rw [List.cons_append, runScript_cons _ hu, ih (Prod.ext rfl hend), List.append_assoc]

/-- No list of commands stops, and each keeps the ring invariant and the host's queue (R146). -/
theorem runScript_keeps_inv (is : List Instr) {s : State} (hs : s.Inv) :
    ∃ t, (runScript is s).2 = .next t ∧ t.Inv ∧ t.inputs = s.inputs := by
  induction is generalizing s with
  | nil => exact ⟨s, rfl, hs, rfl⟩
  | cons i is ih =>
    obtain ⟨u, hu⟩ := exec_completes i s
    obtain ⟨t, hrun, ht, hin⟩ := ih (exec_keeps_inv hs hu)
    rw [runScript_cons is hu]
    exact ⟨t, hrun, ht, hin.trans (exec_inputs hu)⟩

/-! ### Pushes -/

theorem inv_of_empty {s : State} (h : s.q = []) : s.Inv := by
  rw [State.Inv, h]; rfl

/-- A run of pushes in front of other commands leaves them the last 50 bytes (R138). -/
theorem runScript_pushes_lastFifty {bs : List Byte} (hne : bs ≠ []) (is : List Instr) {s : State} (hs : s.Inv) :
    runScript (expandPushBytes bs ++ is) s = runScript is ((s.setQ (lastFifty (s.q ++ bs))).setResp none) := by
  rw [runScript_pushes hne, ringPushAll_eq_lastFifty ((Ring.wf_iff s.q).1 hs)]

theorem runScript_pushes_of_empty {bs : List Byte} (hne : bs ≠ []) (hle : bs.length ≤ 50) (is : List Instr) {s : State}
    (hs : s.q = []) : runScript (expandPushBytes bs ++ is) s = runScript is ((s.setQ bs).setResp none) := by
  rw [runScript_pushes_lastFifty hne is (inv_of_empty hs), hs, List.nil_append, lastFifty_of_short hle]

theorem lastFifty_length (bs : List Byte) : (lastFifty bs).length = min bs.length 50 := by
  rw [lastFifty, List.length_drop]; omega

theorem lastFifty_append_of_ge (p : List Byte) {bs : List Byte} (h : 50 ≤ bs.length) :
    lastFifty (p ++ bs) = lastFifty bs := by
  rw [lastFifty, lastFifty, List.length_append, List.drop_append, List.drop_of_length_le (by omega), List.nil_append]
  congr 1
  omega

theorem frame_toList_ne_nil (w : Frame) : w.toList ≠ [] :=
  List.ne_nil_of_length_pos (by rw [frame_toList_length]; decide)

/-- A frame is its first 24 bytes and its footer. -/
theorem frame_take_append_footer (w : Frame) : w.toList.take 24 ++ [w[24]] = w.toList := by
  have hlast : 24 < w.toList.length := by rw [frame_toList_length]; decide
  rw [← Vector.getElem_toList (xs := w) hlast, List.take_append_getElem hlast,
    List.take_of_length_le (frame_toList_length w).le]

/-! ### Calls that wait -/

/-- At the fixpoint any number of calls wait (40_frame_locator.md R103). -/
theorem runScript_tryParse_of_fixpoint {s : State} (h : atFixpoint s.q = true) (n : Nat) :
    ∃ t, runScript (List.replicate n .tryParse) s = (List.replicate n .notReady, .next t) ∧ t.q = s.q := by
  induction n generalizing s with
  | zero => exact ⟨s, rfl, rfl⟩
  | succ n ih =>
    obtain ⟨t, hrun, ht⟩ := ih (s := afterParse s s.q .notReady) h
    refine ⟨t, ?_, ht⟩
    rw [runScript_replicate_succ n (exec_tryParse_of_fixpoint h), hrun]
    rfl

/-! ### A frame that is still arriving

Through pushes and calls one fact is kept: what the ring holds, followed by what is still to be pushed, is header-free
bytes and then the part of the frame, of fewer than 25 bytes. -/

/-- The bytes are header-free ones, then `part`. -/
def GarbageThen (part bytes : List Byte) : Prop := ∃ garbage, headerFree garbage = true ∧ bytes = garbage ++ part

theorem headerFree_drop {bs : List Byte} (h : headerFree bs = true) (n : Nat) : headerFree (bs.drop n) = true := by
  rw [headerFree_iff] at *
  exact fun b hb => h b (List.mem_of_mem_drop hb)

/-- Bytes may be removed from the front as long as `part` is left. -/
theorem GarbageThen.drop {part bytes : List Byte} {n : Nat} (h : GarbageThen part bytes)
    (hn : n + part.length ≤ bytes.length) : GarbageThen part (bytes.drop n) := by
  obtain ⟨garbage, hg, rfl⟩ := h
  rw [List.length_append] at hn
  exact ⟨garbage.drop n, headerFree_drop hg n, List.drop_append_of_le_length (by omega)⟩

/-- A header byte at the front belongs to `part`. -/
theorem GarbageThen.length_le_of_header {part bytes : List Byte} (h : GarbageThen part bytes)
    (hhead : bytes.head? = some 0x0F#8) : bytes.length ≤ part.length := by
  obtain ⟨garbage, hg, rfl⟩ := h
  cases garbage with
  | nil => exact le_rfl
  | cons b garbage => exact absurd (Option.some.inj hhead) ((headerFree_iff _).1 hg b List.mem_cons_self)

theorem GarbageThen.length_le {part bytes : List Byte} (h : GarbageThen part bytes) : part.length ≤ bytes.length := by
  obtain ⟨garbage, -, rfl⟩ := h
  rw [List.length_append]; omega

/-- A part that fits in 50 bytes is among the last 50. -/
theorem GarbageThen.in_lastFifty {part bytes : List Byte} (h : GarbageThen part bytes) (hpart : part.length ≤ 50) :
    GarbageThen part (lastFifty bytes) := by
  have := h.length_le
  exact h.drop (by omega)

/-- A push moves the next byte into the ring; a full ring gives up a byte of the garbage for it. -/
theorem GarbageThen.after_push {part : List Byte} (hpart : part.length ≤ 24) {q : Ring} {b : Byte} {later : List Byte}
    (h : GarbageThen part (q ++ b :: later)) : GarbageThen part (ringPush q b ++ later) := by
  by_cases hf : q.length = 50
  · have hdrop : ringPush q b ++ later = (q ++ b :: later).drop 1 := by
      rw [ringPush_of_full hf, List.drop_append_of_le_length (by omega), List.append_assoc, List.singleton_append]
    rw [hdrop]
    exact h.drop (by rw [List.length_append]; omega)
  · rwa [ringPush_of_not_full hf, List.append_assoc, List.singleton_append]

/-- A call removes garbage alone and waits: a header at the front of 25 bytes would stand in `part`, which is shorter. -/
theorem GarbageThen.locate_waits {part : List Byte} (hpart : part.length ≤ 24) {q : Ring} {later : List Byte}
    (h : GarbageThen part (q ++ later)) :
    ∃ q', locate .popOne q = .ok (.notReady, q') ∧ GarbageThen part (q' ++ later) := by
  obtain ⟨gone, q₁, rfl, -, h25, hcase⟩ := locate_cases .popOne q
  have hroom : gone.length + part.length ≤ (gone ++ q₁ ++ later).length := by
    cases gone with
    | nil => rw [List.length_nil, Nat.zero_add]; exact h.length_le
    | cons b gone =>
      have := h25 (List.cons_ne_nil b gone)
      simp only [List.length_append]
      omega
  have hleft : GarbageThen part (q₁ ++ later) := by
    have hdrop := h.drop hroom
    rwa [List.append_assoc, List.drop_left] at hdrop
  have hnoHeader : q₁.head? = some 0x0F#8 → 25 ≤ q₁.length → False := by
    intro hhead hlen
    have := hleft.length_le_of_header (by rw [List.head?_append, hhead, Option.some_or])
    rw [List.length_append] at this
    omega
  rcases hcase with ⟨-, e⟩ | ⟨hv, -⟩ | ⟨rest, rfl, hl, -, -⟩
  · exact ⟨q₁, e, hleft⟩
  · obtain ⟨hhead, hlen⟩ := headsValidFrame_head hv
    exact (hnoHeader hhead hlen).elim
  · exact (hnoHeader rfl (Nat.succ_le_succ hl)).elim

/-- While a frame is arriving behind header-free bytes every call answers NotReady. -/
theorem runScript_waits {part : List Byte} (hpart : part.length ≤ 24) {is : List Instr} (hnew : .new ∉ is) {s : State}
    (h : GarbageThen part (s.q ++ pushedBytes is)) :
    ∃ (rs : List Response) (t : State), (∀ r ∈ rs, r = .notReady) ∧ runScript is s = (rs, .next t) ∧
      GarbageThen part t.q := by
  induction is generalizing s with
  | nil => exact ⟨[], s, List.forall_mem_nil _, rfl, by rwa [pushedBytes, List.append_nil] at h⟩
  | cons i is ih =>
    have hnew' : .new ∉ is := fun hm => hnew (List.mem_cons_of_mem i hm)
    cases i with
    | pushByte b =>
      obtain ⟨rs, t, hrs, hrun, ht⟩ := ih hnew' (s := (s.setQ (ringPush s.q b)).setResp none) (h.after_push hpart)
      exact ⟨rs, t, hrs, by rw [runScript_cons is (exec_pushByte b s), hrun]; rfl, ht⟩
    | tryParse =>
      obtain ⟨q', hl, hq'⟩ := GarbageThen.locate_waits hpart (later := pushedBytes is) h
      obtain ⟨rs, t, hrs, hrun, ht⟩ := ih hnew' (s := afterParse s q' .notReady) hq'
      refine ⟨.notReady :: rs, t, List.forall_mem_cons.2 ⟨rfl, hrs⟩, ?_, ht⟩
      rw [runScript_cons is (exec_tryParse_of_notReady hl), hrun]
      rfl
    | new => exact absurd List.mem_cons_self hnew

/-! ### Calls that bring packets -/

/-- One call on a frame behind garbage. -/
theorem runScript_tryParse_of_frame {s : State} {rest : Ring} {w : Frame} (hw : frameValid w = true)
    (h : GarbageThen (w.toList ++ rest) s.q) :
    runScript [.tryParse] s = ([.packet (packetOf w)], .next (afterParse s rest (.packet (packetOf w)))) := by
  obtain ⟨garbage, hg, hq⟩ := h
  rw [runScript_cons [] (exec_tryParse_of_frame hq hg hw)]; rfl

/-- Frames one behind the other come one a call (R136). -/
theorem runScript_tryParse_frames {ws : List Frame} (hws : ∀ w ∈ ws, frameValid w = true) {rest : Ring} {s : State}
    (hq : s.q = (ws.map Vector.toList).flatten ++ rest) :
    ∃ t, runScript (List.replicate ws.length .tryParse) s = (ws.map fun w => .packet (packetOf w), .next t) ∧
      t.q = rest := by
  induction ws generalizing s with
  | nil => exact ⟨s, rfl, hq⟩
  | cons w ws ih =>
    obtain ⟨hw, hws⟩ := List.forall_mem_cons.1 hws
    rw [List.map_cons, List.flatten_cons, List.append_assoc] at hq
    have hexec := exec_tryParse_of_frame (garbage := []) hq rfl hw
    obtain ⟨t, hrun, ht⟩ := ih hws (s := afterParse s _ (.packet (packetOf w))) rfl
    refine ⟨t, ?_, ht⟩
    rw [List.length_cons, runScript_replicate_succ _ hexec, hrun]
    rfl

theorem OnlyFalseHeaders.of_append {gone front tail : Ring} (h : OnlyFalseHeaders (gone ++ front) tail) :
    OnlyFalseHeaders front tail := by
  intro i hi h0
  have hi' : i + gone.length < (gone ++ front).length := by rw [List.length_append]; omega
  have hfalse := h (i + gone.length) hi' (by rwa [List.getElem_append_right' gone hi] at h0)
  rwa [List.append_assoc, Nat.add_comm, ← List.drop_drop, List.drop_left] at hfalse

/-- The first window that is a valid frame is decoded. Each false header in front of it costs one call, which removes it
and the header-free bytes before it (40_frame_locator.md R104, 42_commands.md R145). -/
theorem runScript_tryParse_firstValidWindow {front rest : Ring} {w : Frame} (hw : frameValid w = true)
    (hfront : OnlyFalseHeaders front (w.toList ++ rest)) {s : State} (hq : s.q = front ++ (w.toList ++ rest)) :
    ∃ (n : Nat) (t : State), n ≤ front.count 0x0F#8 ∧
      runScript (List.replicate (n + 1) .tryParse) s =
        (List.replicate n .notReady ++ [.packet (packetOf w)], .next t) ∧
      t.q = rest := by
  induction hn : front.length using Nat.strong_induction_on generalizing front s with
  | _ n ih =>
    by_cases hmem : 0x0F#8 ∈ front
    · obtain ⟨gone, front', rfl, hgone⟩ := List.eq_append_cons_of_mem hmem
      have hg : headerFree gone = true := (headerFree_iff gone).2 fun b hb e => hgone (e ▸ hb)
      have hfront₁ : OnlyFalseHeaders (0x0F#8 :: front') (w.toList ++ rest) := hfront.of_append
      have hlen : 24 ≤ (front' ++ (w.toList ++ rest)).length := by
        simp only [List.length_append, frame_toList_length]; omega
      rw [List.append_assoc, List.cons_append] at hq
      have hexec : exec .tryParse s = .next (afterParse s (front' ++ (w.toList ++ rest)) .notReady) :=
        falseHeaderCostsOneByte s gone _ hq hg hlen (hfront₁ 0 (Nat.succ_pos _) rfl)
      have hlt : front'.length < n := by rw [← hn, List.length_append, List.length_cons]; omega
      obtain ⟨k, t, hk, hrun, ht⟩ := ih _ hlt (front := front') (OnlyFalseHeaders.of_append (gone := [0x0F#8]) hfront₁)
        (s := afterParse s _ .notReady) rfl rfl
      refine ⟨k + 1, t, ?_, ?_, ht⟩
      · rw [List.count_append, List.count_cons_self]; omega
      · rw [runScript_replicate_succ (k + 1) hexec, hrun]; rfl
    · have hg : headerFree front = true := (headerFree_iff front).2 fun b hb e => hmem (e ▸ hb)
      exact ⟨0, _, Nat.zero_le _, runScript_tryParse_of_frame hw ⟨front, hg, hq⟩, rfl⟩

/-! ### The statements -/

/-- Settles O32: fewer than 25 bytes are at the fixpoint. -/
theorem shortRingIsLeftAlone : Obligations.ShortRingIsLeftAlone :=
  fun s n h => runScript_tryParse_of_fixpoint ((atFixpoint_iff s.q).2 (.inl h)) n

/-- Settles O36, by the last 50 bytes that a run of pushes leaves. -/
theorem pushBytesKeepsTheLastFifty : Obligations.PushBytesKeepsTheLastFifty := by
  intro s bs hs
  have hlen : (lastFifty (s.q ++ bs)).length = min (s.q.length + bs.length) 50 := by
    rw [lastFifty_length, List.length_append]
  by_cases hne : bs = []
  · subst hne
    have hstay : s.q = lastFifty (s.q ++ []) := by
      rw [List.append_nil, lastFifty_of_short ((Ring.wf_iff s.q).1 hs)]
    exact ⟨s, rfl, hstay, (congrArg List.length hstay).trans hlen, nofun, fun _ => rfl, rfl⟩
  · have hrun := runScript_pushes_lastFifty hne [] hs
    rw [List.append_nil] at hrun
    exact ⟨_, hrun, rfl, hlen, lastFifty_append_of_ge s.q, fun h => absurd h hne, rfl⟩

/-- Settles O37: the 25 pushes leave the frame, which one call decodes. -/
theorem frameRoundTrip : Obligations.FrameRoundTrip := by
  intro s w hs hw
  have hframe : GarbageThen (w.toList ++ []) w.toList := ⟨[], rfl, by rw [List.append_nil, List.nil_append]⟩
  rw [runScript_pushes_of_empty (frame_toList_ne_nil w) (by rw [frame_toList_length]; decide) _ hs,
    runScript_tryParse_of_frame hw hframe]
  rfl

/-- Settles O38: the calls wait while the frame arrives (`runScript_waits`), its footer and the bytes behind it push out
garbage alone, and the last call decodes it. -/
theorem leadingBytesDoNotChangeThePacket : Obligations.LeadingBytesDoNotChangeThePacket := by
  intro s is garbage behind w hs hw hg hnew hpushed hbehind
  obtain ⟨rs, t, hrs, hrun, left, hleft, ht⟩ := runScript_waits (List.length_take_le 24 w.toList) hnew (s := s)
    ⟨garbage, hg, by rw [hs, hpushed, List.nil_append]⟩
  have hinv : t.Inv := by
    obtain ⟨t', hrun', hinv, -⟩ := runScript_keeps_inv is (inv_of_empty hs)
    rw [hrun] at hrun'
    cases hrun'
    exact hinv
  have hring : GarbageThen (w.toList ++ behind) (t.q ++ w[24] :: behind) :=
    ⟨left, hleft, by rw [ht, List.append_assoc, List.append_cons, frame_take_append_footer]⟩
  have hkept := hring.in_lastFifty (by rw [List.length_append, frame_toList_length]; omega)
  have hscript : is ++ .pushByte w[24] :: expandPushBytes behind ++ [.tryParse] =
      is ++ (expandPushBytes (w[24] :: behind) ++ [.tryParse]) := List.append_assoc _ _ _
  refine ⟨rs, afterParse t behind (.packet (packetOf w)), hrs, ?_, rfl⟩
  rw [hscript, runScript_append hrun, runScript_pushes_lastFifty (List.cons_ne_nil _ _) _ hinv,
    runScript_tryParse_of_frame hw hkept]
  rfl

/-- Settles O40: noise and frame fit in the ring, and the first valid window is decoded
(`runScript_tryParse_firstValidWindow`). -/
theorem noiseDelaysTheFrame : Obligations.NoiseDelaysTheFrame := by
  intro s noise w hs hw hnoise
  have hpushes (is : List Instr) : runScript (expandPushBytes (noise ++ w.toList) ++ is) s =
      runScript is ((s.setQ (noise ++ w.toList)).setResp none) :=
    runScript_pushes_of_empty (List.append_ne_nil_of_right_ne_nil noise (frame_toList_ne_nil w))
      (by rw [List.length_append, frame_toList_length]; omega) is hs
  simp only [hpushes]
  constructor
  · intro hfalse
    have hfront : OnlyFalseHeaders noise (w.toList ++ []) := by rwa [List.append_nil]
    exact runScript_tryParse_firstValidWindow hw hfront (by rw [List.append_nil]; rfl)
  · intro i w' hi hwin hw' hfalse
    obtain ⟨rest, hdrop⟩ := windowOf_eq_some_iff.1 hwin
    have htake : (noise ++ w.toList).take i = noise.take i := List.take_append_of_le_length hi.le
    have hq : noise ++ w.toList = noise.take i ++ (w'.toList ++ rest) := by
      rw [← htake, ← hdrop, List.take_append_drop]
    have hfront : OnlyFalseHeaders (noise.take i) (w'.toList ++ rest) := by
      intro j hj h0
      rw [List.length_take] at hj
      rw [← hq]
      exact hfalse j (by omega) (by omega) (by rwa [List.getElem_take] at h0)
    obtain ⟨n, t, hn, hrun, ht⟩ := runScript_tryParse_firstValidWindow hw' hfront
      (s := (s.setQ (noise ++ w.toList)).setResp none) hq
    refine ⟨n, t, hn.trans ((List.take_sublist i noise).count_le _), hrun, ?_⟩
    rw [ht, ← List.drop_drop, hdrop, List.drop_left' (frame_toList_length w')]

/-- Settles O41, by induction over the frames. -/
theorem framesComeInOrder : Obligations.FramesComeInOrder :=
  fun _ _ _ hq hws => runScript_tryParse_frames hws hq

/-- Settles O55, by induction over the list of commands. -/
theorem noScriptOverflows : Obligations.NoScriptOverflows := fun is _ => runScript_keeps_inv is

/-- Settles O56, by induction over the bytes read. -/
theorem drainPushesThenParses : Obligations.DrainPushesThenParses := by
  constructor
  · intro bs later
    induction bs with
    | nil => rfl
    | cons b bs ih => rw [List.map_cons, List.cons_append, expandDrain, ih]; rfl
  · intro bs
    induction bs with
    | nil => rfl
    | cons b bs ih => rw [List.map_cons, expandDrain, ih]; rfl

end Sys2Proof.Machine
end

section
/-! Every command completes, a step stops at a reserved word alone, and TRY_PARSE's conditions in their order
(60_exceptions.md R150, R154, R158, R165). -/

namespace Sys2Proof.Machine

/-! ### TRY_PARSE on the ring that step 1 leaves -/

/-- A short ring, or one with no header at its front, is left alone (40_frame_locator.md R93). -/
theorem exec_tryParse_of_shortOrNoHeader {s : State}
    (h : (resync s.q).length < 25 ∨ (resync s.q).head? ≠ some 0x0F#8) :
    exec .tryParse s = .next (afterParse s (resync s.q) .notReady) :=
  exec_tryParse_of_notReady (by rw [locate_popOne, locatePopOne_eq, if_pos h])

/-- A false header costs its one byte (40_frame_locator.md R96). -/
theorem exec_tryParse_of_invalidWindow {s : State} {w : Frame} (hhead : (resync s.q).head? = some 0x0F#8)
    (hw : windowOf (resync s.q) = some w) (hv : frameValid w = false) :
    exec .tryParse s = .next (afterParse s ((resync s.q).drop 1) .notReady) := by
  obtain ⟨tail, hq⟩ := windowOf_eq_some_iff.1 hw
  have hlen : ¬(resync s.q).length < 25 := by simp [hq]
  have hfalse : ¬headsValidFrame (resync s.q) = true := by simp [hq, headsValidFrame_append, hv]
  exact exec_tryParse_of_notReady
    (by rw [locate_popOne, locatePopOne_eq, if_neg (not_or.2 ⟨hlen, not_not.2 hhead⟩), if_neg hfalse])

/-- A valid window is decoded and removed (42_commands.md R133). -/
theorem exec_tryParse_of_validWindow {s : State} {w : Frame} (hw : windowOf (resync s.q) = some w)
    (hv : frameValid w = true) :
    exec .tryParse s = .next (afterParse s ((resync s.q).drop 25) (.packet (packetOf w))) := by
  obtain ⟨rest, hq⟩ := windowOf_eq_some_iff.1 hw
  obtain ⟨gone, hgone, hfree, -⟩ := resync_spec s.q
  rw [hq] at hgone
  rw [hq, List.drop_left' (frame_toList_length w)]
  exact exec_tryParse_of_frame hgone ((headerFree_iff gone).2 hfree) hv

/-! ### The statements -/

/-- Settles O28: the ring that step 1 leaves (`resync_spec`), and the answer on it by its length, its front and its
window. -/
theorem tryParseTestsInOrder : Obligations.TryParseTestsInOrder := by
  intro s
  obtain ⟨gone, hgone, hfree, hstop, hlen⟩ := resync_spec s.q
  refine ⟨gone, resync s.q, hgone, (headerFree_iff gone).2 hfree, hlen, ?_⟩
  rw [ringPeek_zero]
  refine ⟨hstop, exec_tryParse_of_shortOrNoHeader, fun h25 hhead => ?_⟩
  obtain ⟨w, hw⟩ := windowOf_some_of_length h25
  exact ⟨w, hw, exec_tryParse_of_invalidWindow hhead hw, exec_tryParse_of_validWindow hw⟩

/-- Settles O49, by what a command can do (`exec_cases`). -/
theorem everyCommandCompletes : Obligations.EveryCommandCompletes :=
  fun i s => ⟨exec_completes i s, fun t _ i' => exec_completes i' t⟩

/-- Settles O50, by the inversion of a step (`step_cases`): a command completes, and a word that does not decode is
reserved. -/
theorem onlyReservedWordsStopAStep : Obligations.OnlyReservedWordsStopAStep := by
  intro s
  rcases step_cases s with
    ⟨-, e⟩ | ⟨p, ps, hin, ⟨-, e⟩ | ⟨-, -, e⟩ | ⟨hr, hv, ⟨i, -, e⟩ | ⟨r, hd, e⟩⟩⟩
  · exact .inl ⟨_, e⟩
  · exact .inl ⟨_, e⟩
  · exact .inl ⟨_, e⟩
  · exact .inl (e ▸ exec_completes i (s.setInputs ps))
  · have hw : wordLegal p.cmd = false := by
      rw [Bool.eq_false_iff, ne_eq, ← decode_ok_iff_wordLegal, hd]
      rintro ⟨i, hi⟩
      cases hi
    exact .inr ⟨p, ps, r, hin, hr, hv, hw, e⟩

/-- Settles O48: an idle step changes the response and the host's queue alone. -/
theorem idleHoldsTheRing : Obligations.IdleHoldsTheRing := by
  refine ⟨fun s h => ?_, fun s p ps h hr hv => step_of_idle h hr hv⟩
  rw [step_of_no_input h, ← h]
  rfl

end Sys2Proof.Machine
end

section
/-! Reset and back-to-back commands: what empties the ring, what the reset input drops, and what a TRY_PARSE leaves for
the commands behind it (70_reset_and_hazards.md R170, R171, R175, R177). -/

namespace Sys2Proof.Machine

/-! ### Reset -/

theorem occupancy_of_empty {s : State} (h : s.q = []) : occupancy s = 0#6 := by
  rw [occupancy, h]; rfl

theorem cmdReady_eq_false_of_rst {p : PortSample} (h : p.rst = true) : cmdReady p = false := by
  rw [cmdReady, h]; rfl

theorem cmdReady_offer (w : CmdWord) : cmdReady (offer w) = true := rfl

/-- A command offered in the sample behind a reset runs on the cleared block. -/
theorem core_run_rst_then_command {s : State} {p : PortSample} {ps : List PortSample} {w : CmdWord} {i : Instr}
    (h : s.inputs = p :: offer w :: ps) (hr : p.rst = true) (hd : decode w = .ok i) :
    Host.Core.run core 2 s = exec i ((clearBlock s).setInputs ps) := by
  rw [core_run_succ 1 (step_of_rst h hr), core_run_one]
  exact step_of_command (s := clearBlock (s.setInputs (offer w :: ps))) rfl rfl rfl hd

/-! ### Calls that wait -/

/-- At the fixpoint any number of calls, at least one, end in the state that one call leaves (40_frame_locator.md R103). -/
theorem runScript_tryParse_succ_of_fixpoint {s : State} (h : atFixpoint s.q = true) (n : Nat) :
    runScript (List.replicate (n + 1) .tryParse) s =
      (List.replicate (n + 1) .notReady, .next (afterParse s s.q .notReady)) := by
  have hcall := exec_tryParse_of_fixpoint h
  induction n generalizing s with
  | zero => rw [runScript_replicate_succ 0 hcall]; rfl
  | succ n ih =>
    have hnext := ih (s := afterParse s s.q .notReady) h (exec_tryParse_of_fixpoint h)
    rw [runScript_replicate_succ (n + 1) hcall, hnext]
    rfl

/-! ### Room behind a TRY_PARSE -/

/-- Away from the fixpoint a TRY_PARSE removes a byte, whatever it answers. -/
theorem exec_tryParse_length_lt {s t : State} (hf : atFixpoint s.q = false) (h : exec .tryParse s = .next t) :
    t.q.length < s.q.length := by
  rw [exec_tryParse] at h
  rcases tryParseIn_cases .popOne s with ⟨q', hl, -, e⟩ | ⟨w, rest, -, hs, -, e⟩ <;> rw [e] at h <;> cases h
  · exact locate_notReady_length_lt hf hl
  · have hle := hs.length_le
    rw [List.length_append, frame_toList_length] at hle
    rw [afterParse_q]
    omega

/-- A full ring is not at the fixpoint, so a TRY_PARSE leaves room in it. -/
theorem exec_tryParse_length_le {s t : State} (hs : s.Inv) (h : exec .tryParse s = .next t) : t.q.length ≤ 49 := by
  have h50 : s.q.length ≤ 50 := (Ring.wf_iff s.q).1 hs
  cases hf : atFixpoint s.q with
  | true =>
    have hle := (exec_tryParse_suffix h).length_le
    have hfix := (atFixpoint_iff s.q).1 hf
    omega
  | false =>
    have hlt := exec_tryParse_length_lt hf h
    omega

/-- Two pushes onto 49 bytes evict: 51 bytes do not fit. -/
theorem ringPush_ringPush_ne_append {q : Ring} (h : q.length = 49) (a b : Byte) :
    ringPush (ringPush q a) b ≠ q ++ [a, b] := by
  intro heq
  have hle := ringPush_length_le (ringPush_length_le (q := q) (by omega) a) b
  rw [heq, List.length_append, h] at hle
  exact Nat.not_succ_le_self 50 hle

/-! ### The statements -/

/-- Settles O31: both cases are the locator's fixpoint, at which a call changes the response alone. -/
theorem tryParseWaitsForData : Obligations.TryParseWaitsForData := by
  refine ⟨fun s h => ?_, exec_completes⟩
  rw [ringPeek_zero] at h
  have hf : atFixpoint s.q = true := (atFixpoint_iff s.q).2 h
  exact ⟨exec_tryParse_of_fixpoint hf, runScript_tryParse_succ_of_fixpoint hf⟩

/-- Settles O42: at most 49 bytes are left, so one push finds room; on a full ring of headers the one call removes one
byte, and the second push evicts. -/
theorem tryParseLeavesRoomForAByte : Obligations.TryParseLeavesRoomForAByte := by
  constructor
  · intro s hs
    obtain ⟨t, ht⟩ := exec_completes .tryParse s
    have hroom := exec_tryParse_length_le hs ht
    exact ⟨t, ht, hroom, fun b => ⟨_, exec_pushByte b t, ringPush_of_not_full (by omega) b⟩⟩
  · have hcall := falseHeaderCostsOneByte (State.reset.setQ (List.replicate 50 0x0F#8)) [] (List.replicate 49 0x0F#8)
      rfl rfl (by decide) (by decide)
    exact ⟨_, _, _, _, 0x00#8, 0x00#8, by decide, hcall, exec_pushByte _ _, exec_pushByte _ _,
      ringPush_ringPush_ne_append List.length_replicate _ _⟩

/-- Settles O44. -/
theorem resetLeavesAnEmptyRing : Obligations.ResetLeavesAnEmptyRing :=
  ⟨⟨rfl, occupancy_of_empty rfl⟩,
    fun s => ⟨_, exec_new s, rfl, occupancy_of_empty rfl⟩,
    fun _ _ _ h hr => ⟨_, step_of_rst h hr, rfl, occupancy_of_empty rfl⟩⟩

/-- Settles O45: the reset step takes its sample whole, and the next sample is taken on the cleared block. -/
theorem resetInputDropsTheOffer : Obligations.ResetInputDropsTheOffer := by
  refine fun s p ps h hr => ⟨cmdReady_eq_false_of_rst hr, step_of_rst h hr, fun w i qs hps hd => ⟨cmdReady_offer w, ?_⟩⟩
  subst hps
  exact core_run_rst_then_command h hr hd

end Sys2Proof.Machine
end

section
/-! The words of the encoding, the step that runs an offered word's command, and frames found in noise (30_encoding.md
R71, R75, R82; 40_frame_locator.md R104; 90_conflicts.md C2). -/

namespace Sys2Proof.Machine

/-! ### The step on an offered word -/

/-- A step on an offered word that decodes runs its command on the state with the rest of the queue. -/
theorem step_of_offer {s : State} {w : CmdWord} {i : Instr} {ps : List PortSample} (h : s.inputs = offer w :: ps)
    (hd : decode w = .ok i) : step s = exec i (s.setInputs ps) :=
  step_of_command h rfl rfl hd

/-- The table's reading of a number is the decoder's reading of its word. -/
theorem decodeTableWord_eq_some_iff {nbits w : Nat} {i : Instr} :
    decodeTableWord nbits w = some i ↔ decode (wordOfNat w) = .ok i := by
  cases hd : decode (wordOfNat w) <;> simp [decodeTableWord, hd]

/-- Offering a word leaves the queue behind it as it was, so its command runs on `s` itself. -/
theorem step_withFetchWord {s : State} {nbits w : Nat} {i : Instr} (h : decodeTableWord nbits w = some i) :
    step (s.withFetchWord nbits w) = exec i s := by
  rw [step_of_offer (withFetchWord_inputs s nbits w) (decodeTableWord_eq_some_iff.1 h), withFetchWord_setInputs]

/-! ### The false frame of 90_conflicts.md C2 -/

/-- The noise 0F 01 02 03 04 05 and the 19 bytes of S1 behind it: S1's first zero byte stands as the footer. -/
def falseFrame : Frame :=
  #v[0x0F, 0x01, 0x02, 0x03, 0x04, 0x05,
     0x0F, 0xE0, 0x03, 0x1F, 0x58, 0xC0, 0x07, 0x16, 0xB0, 0x80, 0x05, 0x2C, 0x60, 0x01, 0x0B, 0xF8, 0xC0, 0x07,
     0x00]

theorem frameValid_falseFrame : frameValid falseFrame = true := by decide

/-- The false packet that 95_test_vectors.md LOC-12 lists. -/
theorem packetOf_falseFrame : packetOf falseFrame =
    { channels := #v[513, 96, 1040, 1922, 1536, 1543, 1543, 1538, 1543, 1538, 1538, 1538, 1538, 1538, 1538, 1543]
      d1 := true, d2 := true, frameLost := true, failsafe := false } := by decide

/-! ### The statements -/

/-- Settles O1: one inverse is by the command's constructors, the other by the word's op field. -/
theorem decodeAndEncodeAgree : Obligations.DecodeAndEncodeAgree :=
  ⟨fun i _ => decode_encode i, fun _ _ => encode_of_decode⟩

/-- Settles O39, by induction over the length of the front part, one false header a call
(`runScript_tryParse_firstValidWindow`). -/
theorem firstValidWindowIsDecoded : Obligations.FirstValidWindowIsDecoded := by
  intro s front rest w hq hw hfalse
  have hfront : OnlyFalseHeaders front (w.toList ++ rest) := by rwa [hq] at hfalse
  exact runScript_tryParse_firstValidWindow hw hfront hq

/-- Settles O4: the five commands are their words' encodings read back, and each reserved word is rejected by its op's
branch. -/
theorem writtenOutWordsDecode : Obligations.WrittenOutWordsDecode :=
  ⟨decode_encode (.pushByte 0x00#8), decode_encode (.pushByte 0x0F#8), decode_encode (.pushByte 0xFF#8),
    decode_encode .tryParse, decode_encode .new,
    (decode_of_op01 rfl).trans (if_neg (by decide)), (decode_of_op10 rfl).trans (if_neg (by decide)),
    decode_of_op11 rfl, decode_of_op11 rfl⟩

/-- Settles O43: the false frame heads the ring and passes the validity test, so one call decodes it and leaves the last
six bytes of S1. -/
theorem falseFrameInNoise : Obligations.FalseFrameInNoise := by
  unfold Obligations.FalseFrameInNoise
  have hcall := exec_tryParse_of_frame (s := State.reset.setQ (falseFrame.toList ++ [0x00, 0x00, 0x00, 0x00, 0x03, 0x00]))
    (garbage := []) rfl rfl frameValid_falseFrame
  rw [packetOf_falseFrame] at hcall
  exact congrArg blockView hcall

/-- Settles O46: an offer has `rst` = 0 and `cmd_valid` = 1, so the step runs the command its word decodes to. -/
theorem stepRunsTheDecodedCommand : Obligations.StepRunsTheDecodedCommand :=
  ⟨fun _ _ _ _ => step_of_offer, fun _ _ _ _ => step_withFetchWord⟩

end Sys2Proof.Machine
end
